-- ==== Sys2Proof/Word.lean ====
section
/-! DEFINITION. The Word (00_scope.md R4) and the byte of the two streams (10_state.md R23).
Arithmetic on Words is `BitVec 32` arithmetic, which wraps modulo 2^32 as R4 says. -/

namespace Sys2Proof

/-- R4: "an unsigned 32-bit integer ('platter')". -/
abbrev Word := BitVec 32

/-- A byte of the input and output streams, 0 to 255 (R23). -/
abbrev Byte := BitVec 8

end Sys2Proof
end

