-- ==== Sys2Proof/Config.lean ====
section
/-! DEFINITION. What an implementation fixes: the admission test of Allocation as data
(92_eei_decisions.md D8) and the one free value of the model (log entry 8). The third form of the
admission test calls `Config.platformAdmits`, which stands in Machine/State.lean because it is a
predicate on the whole State. -/

namespace Sys2Proof

/-- The configuration `alloc_admit` of 20_memory.md R35 as plain data (log entry 7). -/
inductive AllocAdmit
  /-- Constantly true: the spec's default, "the machine is exactly the source's" (R117). -/
  | always
  /-- Constantly false: every Allocation raises `AllocationExhausted` (95_test_vectors.md 2.6). -/
  | never
  /-- The platform's own predicate on the state and the requested size, uninterpreted. -/
  | platform
deriving DecidableEq, Repr

/-- FREE VALUE, DESIGN CHOICE (log entry 8): the Word Allocation writes for an index of 2^32 or more.
R87 says `zext_32(idx)`, which 00_scope.md section 5 defines for narrower values only, and D17 says
no more than that no Word can name such an index. -/
opaque Config.unnameableIndexWord : Nat → Word

/-- R17, R132: the largest number of Words of a block and of an image. -/
def Config.maxBlockWords : Nat := 2 ^ 32 - 1

end Sys2Proof
end

