-- ==== Sys2Proof/Syntax.lean ====
section
/-! DEFINITION. The instructions (30_encoding.md R55, one constructor per row of
spec/opcode_table.json) and the terms the Codec answers with (R53). Register numbers are `Fin 8`,
since "register operand indices are always valid" (00_scope.md R5), and the immediate has the
25 bits R52 gives it. -/

namespace Sys2Proof

/-- The number of a general register, 0 to 7 (10_state.md R10). -/
abbrev Reg := Fin 8

/-- What `Decode` of R53 returns: the fields of one of the two layouts. -/
inductive Fields
  /-- Standard layout (R51): operation code and the register numbers A, B, C. -/
  | std (op : Fin 16) (a b c : Reg)
  /-- Orthography layout (R52): target register and immediate. -/
  | orth (r : Reg) (imm : BitVec 25)
deriving DecidableEq, Repr

/-- The 14 instructions, with the register fields each one uses (R55), in the order A, B, C. -/
inductive Instr
  /-- 0 Conditional Move. -/
  | cmov (a b c : Reg)
  /-- 1 Array Index. -/
  | aidx (a b c : Reg)
  /-- 2 Array Amendment. -/
  | amend (a b c : Reg)
  /-- 3 Addition. -/
  | add (a b c : Reg)
  /-- 4 Multiplication. -/
  | mul (a b c : Reg)
  /-- 5 Division. -/
  | div (a b c : Reg)
  /-- 6 Bitwise NAND. -/
  | nand (a b c : Reg)
  /-- 7 Halt. -/
  | halt
  /-- 8 Allocation. -/
  | alloc (b c : Reg)
  /-- 9 Abandonment. -/
  | aband (c : Reg)
  /-- 10 Output. -/
  | out (c : Reg)
  /-- 11 Input; the table's mnemonic `in` is a word of Lean's own. -/
  | inp (c : Reg)
  /-- 12 Load Program. -/
  | loadp (b c : Reg)
  /-- 13 Orthography. -/
  | orth (r : Reg) (imm : BitVec 25)
deriving DecidableEq, Repr

end Sys2Proof
end

