-- ==== Sys2Proof/WellFormed.lean ====
section
/-! DEFINITION. The checks on terms. The operands of an `Instr` carry their bounds in their types
(register numbers below 8, an immediate of 25 bits), so every `Instr` is well formed; what a check
can refuse is a term of the Codec and a launch image. -/

namespace Sys2Proof

/-- A term of the Codec that stands for an instruction. A Standard term carries one of the
operation codes 0 to 12 (R50, R51): 13 has the Orthography layout, and 14 and 15 are illegal (R56). -/
def Fields.wf : Fields → Bool
  | .std op _ _ _ => op.val ≤ 12
  | .orth _ _ => true

/-- A launch image has at most 2^32 - 1 Words (70_reset_and_hazards.md R132). -/
abbrev Image.wf (image : List Word) : Prop := image.length ≤ Config.maxBlockWords

end Sys2Proof
end

