-- ==== Sys2Proof/Decode.lean ====
section
/-! DEFINITION. The Codec: field extraction (30_encoding.md R51 to R53), the engine's judgement of
the operation code (40_execution_loop.md R69), and after them the encoder (R60). -/

namespace Sys2Proof

/-- `w[hi:lo]` as 00_scope.md section 5 defines it: `(w >> lo) mod 2^(hi-lo+1)`. -/
def bitField (w : Word) (hi lo : Nat) : Nat := (w.toNat >>> lo) % 2 ^ (hi - lo + 1)

/-- The operation code, `bits[31:28]`: the full 4-bit value, 0 to 15 (R53). -/
def opField (w : Word) : Fin 16 := Fin.ofNat 16 (bitField w 31 28)
/-- `A = bits[8:6]` (R51, 90_conflicts.md C1). -/
def aField (w : Word) : Reg := Fin.ofNat 8 (bitField w 8 6)
/-- `B = bits[5:3]` (R51). -/
def bField (w : Word) : Reg := Fin.ofNat 8 (bitField w 5 3)
/-- `C = bits[2:0]` (R51). -/
def cField (w : Word) : Reg := Fin.ofNat 8 (bitField w 2 0)
/-- `R = bits[27:25]` (R52). -/
def rField (w : Word) : Reg := Fin.ofNat 8 (bitField w 27 25)
/-- `imm = bits[24:0]` (R52). -/
def immField (w : Word) : BitVec 25 := BitVec.ofNat 25 (bitField w 24 0)

/-- R53 `Decode`: total on all 2^32 Words, no failure mode; the layout is chosen by the operation
code alone (R50). -/
def codec (w : Word) : Fields :=
  if opField w = 13 then .orth (rField w) (immField w)
  else .std (opField w) (aField w) (bField w) (cField w)

/-- Why the engine rejects what the Codec returned. -/
inductive DecodeError
  /-- "If opcode > 13, fail with `UnknownOpcode`" (R69); the code is kept for the reader of a test. -/
  | unknownOpcode (op : Fin 16)
deriving DecidableEq, Repr

/-- The opcode map R55. Fields an instruction does not use are dropped (R58). -/
def instrOfFields : Fields → Except DecodeError Instr
  | .orth r imm => .ok (.orth r imm)
  | .std op a b c =>
    match op.val with
    | 0 => .ok (.cmov a b c)
    | 1 => .ok (.aidx a b c)
    | 2 => .ok (.amend a b c)
    | 3 => .ok (.add a b c)
    | 4 => .ok (.mul a b c)
    | 5 => .ok (.div a b c)
    | 6 => .ok (.nand a b c)
    | 7 => .ok .halt
    | 8 => .ok (.alloc b c)
    | 9 => .ok (.aband c)
    | 10 => .ok (.out c)
    | 11 => .ok (.inp c)
    | 12 => .ok (.loadp b c)
    | _ => .error (.unknownOpcode op)

/-- The instruction a Word stands for, or the rejection of R56. -/
def decode (w : Word) : Except DecodeError Instr := instrOfFields (codec w)

/-! ## The encoder (R60) -/

/-- R60's formula for the two layouts. -/
def encodeFields : Fields → Word
  | .std op a b c =>
    BitVec.ofNat 32 ((op.val <<< 28) ||| (a.val <<< 6) ||| (b.val <<< 3) ||| c.val)
  | .orth r imm => BitVec.ofNat 32 ((13 <<< 28) ||| (r.val <<< 25) ||| imm.toNat)

/-- The canonical term of an instruction: unused register fields are zero (R60). -/
def fieldsOfInstr : Instr → Fields
  | .cmov a b c => .std 0 a b c
  | .aidx a b c => .std 1 a b c
  | .amend a b c => .std 2 a b c
  | .add a b c => .std 3 a b c
  | .mul a b c => .std 4 a b c
  | .div a b c => .std 5 a b c
  | .nand a b c => .std 6 a b c
  | .halt => .std 7 0 0 0
  | .alloc b c => .std 8 0 b c
  | .aband c => .std 9 0 0 c
  | .out c => .std 10 0 0 c
  | .inp c => .std 11 0 0 c
  | .loadp b c => .std 12 0 b c
  | .orth r imm => .orth r imm

/-- The canonical Word of an instruction (R60). -/
def encode (i : Instr) : Word := encodeFields (fieldsOfInstr i)

/-- A canonical Word (R60): of an operation code 0 to 13, with every ignored bit and every unused
register field zero. -/
def canonical (w : Word) : Bool :=
  match (opField w).val with
  | 7 => bitField w 27 0 == 0
  | 8 | 12 => bitField w 27 6 == 0
  | 9 | 10 | 11 => bitField w 27 3 == 0
  | 13 => true
  | 14 | 15 => false
  | _ => bitField w 27 9 == 0

/-- The host's view of the decoder: the bits of `w` above `nbits` are zero, and an instruction is
one Word (R50). -/
def decodeTableWord (nbits w : Nat) : Option Instr :=
  match decode (BitVec.ofNat 32 (w % 2 ^ nbits)) with
  | .ok i => some i
  | .error _ => none

end Sys2Proof
end

