-- ==== Sys2Proof/Machine/Flags.lean ====
section
/-! DEFINITION. Flag computations: the machine has no status flags, condition codes or predicate
registers (10_state.md R14), and Addition and Multiplication record no carry (41_register_alu.md
R81), so no flag is computed. What stands here are the tests on Words that decide a conditional
effect or a fatal condition. -/

namespace Sys2Proof.Machine

/-- Conditional Move's test, on the whole Word: any of the 2^32 - 1 non-zero values moves (R75). -/
def isNonZero (v : Word) : Bool := v != 0

/-- Division's test of the divisor (R78). -/
def isZeroDivisor (v : Word) : Bool := v == 0

/-- Output's test: "If v > 255, fails" (R100). -/
def exceedsByte (v : Word) : Bool := 255 < v.toNat

end Sys2Proof.Machine
end

