-- ==== Sys2Proof/Machine/Assoc.lean ====
section
/-! DEFINITION. Lists of (key, value) pairs with strictly rising keys: the one representation of
sparse data in the State (the Heap, and the cells of a Block; log entry 1). -/

namespace Sys2Proof.Machine

/-- The value listed for a key. -/
def Assoc.lookup {α : Type} (k : Nat) : List (Nat × α) → Option α
  | [] => none
  | (j, v) :: rest => if j = k then some v else Assoc.lookup k rest

/-- List a value for a key, at the key's place, instead of the one listed before. -/
def Assoc.insert {α : Type} (k : Nat) (v : α) : List (Nat × α) → List (Nat × α)
  | [] => [(k, v)]
  | (j, u) :: rest =>
    if k < j then (k, v) :: (j, u) :: rest
    else if j = k then (k, v) :: rest
    else (j, u) :: Assoc.insert k v rest

/-- List nothing for a key. -/
def Assoc.erase {α : Type} (k : Nat) : List (Nat × α) → List (Nat × α)
  | [] => []
  | (j, u) :: rest => if j = k then Assoc.erase k rest else (j, u) :: Assoc.erase k rest

/-- The canonical order: keys strictly rising. -/
abbrev Assoc.sorted {α : Type} (l : List (Nat × α)) : Prop :=
  l.Pairwise (fun p q => p.1 < q.1)

end Sys2Proof.Machine
end

