-- ==== Sys2Proof/Machine/State.lean ====
section
/-! DEFINITION. The complete state of the machine (10_state.md), the stops of a step, and the state
after reset. -/

namespace Sys2Proof.Machine

/-- R20, R72: the two states of the engine. -/
inductive Status
  /-- Bit 0: takes steps. -/
  | running
  /-- Bit 1: terminal, left only by a reset. -/
  | halted
deriving DecidableEq, Repr

/-- The fatal conditions of 60_exceptions.md R105, R106. -/
inductive FatalCondition
  /-- 1: raised by the Loader only, never by the core (R109). -/
  | malformedImage
  /-- 2: R110. -/
  | unknownOpcode
  /-- 3: R111. -/
  | outOfBoundsArray
  /-- 4: R112. -/
  | outOfBoundsOffset
  /-- 5: R113. -/
  | invalidReclaim
  /-- 6: R114. -/
  | divisionByZero
  /-- 7: R115. -/
  | outputRangeError
  /-- 8: R116. -/
  | programCounterOutOfRange
  /-- 9: R117, the spec's own. -/
  | allocationExhausted
deriving DecidableEq, Repr

/-- A token of the input stream (R24): a byte, or the signal of the end of the stream. -/
inductive Token
  | byte (b : Byte)
  | eos
deriving DecidableEq, Repr

/-- A Block (R17): its size, 0 to 2^32 - 1, and its cells. A cell at an offset below the size that is
not listed holds 0, which is what an allocated block holds (R35); a cell that holds 0 is not listed
(log entry 1). -/
structure Block where
  size : Word
  cells : List (Nat × Word)
deriving DecidableEq, Repr

/-- The Heap (R15): the live indices with their blocks, indices strictly rising. An index that is not
listed is not live. -/
abbrev Memory := List (Nat × Block)

/-- The state tuple of 10_state.md, then what the model's fixed form of a step needs of the launch
parameters (log entries 3 and 7): no step changes `input` or `allocAdmit`. -/
structure State where
  /-- R10: the eight general registers. -/
  x : Vector Word 8
  /-- R12: the Instruction Pointer, a word offset into Block 0. -/
  pc : Word
  /-- R15: the Heap. -/
  heap : Memory
  /-- R18: the Free List, top at the end. -/
  freeList : List Nat
  /-- R19: the smallest index that was never assigned. -/
  nextIndex : Nat
  /-- R20. -/
  status : Status
  /-- R21: `none` is code 0, no fatal condition. -/
  cause : Option FatalCondition
  /-- R24: the launch parameter `in`, the tokens the host has supplied so far. -/
  input : List Token
  /-- R24: how many tokens have been consumed. -/
  inPos : Nat
  /-- R24: the end-of-stream latch. -/
  eof : Bool
  /-- R25: the bytes emitted, in program order. -/
  out : List Byte
  /-- R35: the configuration `alloc_admit`. -/
  allocAdmit : AllocAdmit
deriving DecidableEq, Repr

/-- A step's faults: none. Every error of this machine is a fatal condition whose entry
60_exceptions.md R108 describes, so it is a next state (log entry 6). -/
inductive Fault : Type
deriving DecidableEq, Repr

/-- A step's refusals. -/
inductive Refusal
  /-- An arm of `exec` for an instruction that has no meaning yet; no arm answers it. It would be
  safe: the model stops where the hardware goes on. -/
  | notModelled (mnemonic : String)
deriving DecidableEq, Repr

/-- The state after reset (R27, R131) for the launch with the empty image, the empty input stream (its
end signalled and nothing before it) and the default admission: DESIGN CHOICE of the three open
parameters (log entries 2, 3, 7). `State.launch` in Machine/Launch.lean is the reset for any others. -/
def State.reset : State where
  x := Vector.replicate 8 0
  pc := 0
  heap := [(0, { size := 0, cells := [] })]
  freeList := []
  nextIndex := 1
  status := .running
  cause := none
  input := [.eos]
  inPos := 0
  eof := false
  out := []
  allocAdmit := .always

end Sys2Proof.Machine

namespace Sys2Proof

/-- FREE VALUE (92_eei_decisions.md D8, OPEN; log entry 7): a platform's own `alloc_admit(S, n)`,
uninterpreted. Only `AllocAdmit.platform` consults it. -/
opaque Config.platformAdmits : Machine.State → Word → Bool

end Sys2Proof
end

