-- ==== Sys2Proof/Machine/Operands.lean ====
section
/-! DEFINITION. The operand forms (30_encoding.md R54): a general register, or the 25-bit immediate;
and how a Word names a block and a cell (42_heap_instructions.md R89, 92_eei_decisions.md D17). -/

namespace Sys2Proof.Machine

/-- `x[r]` (R10, R11: no register is hardwired and none alias). -/
def State.reg (s : State) (r : Reg) : Word := s.x[r]

/-- `x[r] <- v`. -/
def State.setReg (s : State) (r : Reg) (v : Word) : State := { s with x := s.x.set r v }

/-- The immediate, zero-extended to 32 bits, neither scaled nor shifted (R54). -/
def immWord (imm : BitVec 25) : Word := imm.setWidth 32

/-- An input byte, zero-extended (R99). -/
def byteWord (b : Byte) : Word := b.setWidth 32

/-- `v[7:0]` (R100). -/
def lowByte (v : Word) : Byte := v.setWidth 8

/-- The sentinel an Input yields at the end of the stream: all ones (R99). -/
def endOfStreamWord : Word := BitVec.allOnes 32

/-- The index a Word names: the one of the same integer value (D17). -/
abbrev indexOfWord (v : Word) : Nat := v.toNat

/-- The word offset a Word names, used as it is (R89). -/
abbrev offsetOfWord (v : Word) : Nat := v.toNat

/-- `zext_32(idx)` of R87; for an index that no Word can name, a free value (log entry 8). -/
def wordOfIndex (i : Nat) : Word :=
  if i < 2 ^ 32 then BitVec.ofNat 32 i else Config.unnameableIndexWord i

end Sys2Proof.Machine
end

