-- ==== Sys2Proof/Machine/Ops.lean ====
section
/-! DEFINITION. The shared operations: taking a fatal condition (60_exceptions.md R108), the heap
manager's primitives (20_memory.md R33 to R37), fetch and advance (40_execution_loop.md R67, R68),
and the I/O Adapter's two operations (44_io.md R98, R99). An operation that can raise answers
`Except FatalCondition`; `orRaise` takes the condition. -/

namespace Sys2Proof.Machine

/-! ## Taking a fatal condition -/

/-- `raise K` (R108): status and cause, nothing else; nothing is saved and there is no vector. There
is no return from it (R121), so no operation stands beside it. -/
def State.raise (s : State) (k : FatalCondition) : State :=
  { s with status := .halted, cause := some k }

/-- An instruction that raises "performs none of its writes" (R70): the condition is taken in the
state the instruction started from. -/
def State.orRaise (s : State) (r : Except FatalCondition State) : Host.Outcome State Fault Refusal :=
  match r with
  | .ok t => .next t
  | .error k => .next (s.raise k)

/-- The 4-bit code of the `cause` field (R106). -/
def causeCode : Option FatalCondition → BitVec 4
  | none => 0
  | some .malformedImage => 1
  | some .unknownOpcode => 2
  | some .outOfBoundsArray => 3
  | some .outOfBoundsOffset => 4
  | some .invalidReclaim => 5
  | some .divisionByZero => 6
  | some .outputRangeError => 7
  | some .programCounterOutOfRange => 8
  | some .allocationExhausted => 9

/-- The 1-bit value of the `status` field (R20). -/
def statusBit : Status → BitVec 1
  | .running => 0
  | .halted => 1

/-! ## Blocks and the Heap -/

/-- The Word at an offset of a block; read only at offsets below the size. -/
def Block.read (b : Block) (o : Nat) : Word := (Assoc.lookup o b.cells).getD 0#32

/-- The cell at offset `o` becomes `v`; a cell that becomes 0 is no longer listed. -/
def Block.write (b : Block) (o : Nat) (v : Word) : Block :=
  { b with cells := if v = 0#32 then Assoc.erase o b.cells else Assoc.insert o v b.cells }

/-- A new block of `n` Words, every Word 0 (R35). -/
def Block.zero (n : Word) : Block := { size := n, cells := [] }

/-- The listed cells of a sequence of Words from an offset on. -/
def cellsOfWords (o : Nat) : List Word → List (Nat × Word)
  | [] => []
  | w :: ws => if w = 0#32 then cellsOfWords (o + 1) ws else (o, w) :: cellsOfWords (o + 1) ws

/-- A block that holds a sequence of at most 2^32 - 1 Words (R132). -/
def Block.ofWords (ws : List Word) : Block :=
  { size := BitVec.ofNat 32 ws.length, cells := cellsOfWords 0 ws }

/-- The canonical form of a block: offsets strictly rising and below the size, no cell of 0 listed. -/
abbrev Block.wf (b : Block) : Prop :=
  Assoc.sorted b.cells ∧ ∀ p ∈ b.cells, p.1 < b.size.toNat ∧ p.2 ≠ 0#32

/-- The canonical form of the Heap: indices strictly rising, every block canonical. -/
abbrev Memory.wf (m : Memory) : Prop :=
  Assoc.sorted m ∧ ∀ p ∈ m, p.2.wf

/-- The Block a live index refers to. -/
def State.block (s : State) (i : Nat) : Option Block := Assoc.lookup i s.heap

/-- `live(i)` (R15). -/
def State.live (s : State) (i : Nat) : Bool := (s.block i).isSome

/-- `size(i)`; 0 for an index that is not live, where the spec gives the name no meaning. -/
def State.size (s : State) (i : Nat) : Nat :=
  match s.block i with
  | some b => b.size.toNat
  | none => 0

/-- `MemRead(i, o)` (R33). -/
def State.memRead (s : State) (i o : Nat) : Except FatalCondition Word :=
  match s.block i with
  | none => .error .outOfBoundsArray
  | some b => if b.size.toNat ≤ o then .error .outOfBoundsOffset else .ok (b.read o)

/-- `MemWrite(i, o, v)` (R34). -/
def State.memWrite (s : State) (i o : Nat) (v : Word) : Except FatalCondition State :=
  match s.block i with
  | none => .error .outOfBoundsArray
  | some b =>
    if b.size.toNat ≤ o then .error .outOfBoundsOffset
    else .ok { s with heap := Assoc.insert i (b.write o v) s.heap }

/-- `alloc_admit(S, n)` (R35, D8). -/
def State.admits (s : State) (n : Word) : Bool :=
  match s.allocAdmit with
  | .always => true
  | .never => false
  | .platform => Config.platformAdmits s n

/-- The index the next admitted `Alloc` returns: the one freed last, else `next_index` (R35). -/
def State.nextAllocIndex (s : State) : Nat := s.freeList.getLast?.getD s.nextIndex

/-- `Alloc(n)` (R35): the state with the new block, and its index. -/
def State.alloc (s : State) (n : Word) : Except FatalCondition (State × Nat) :=
  if s.admits n then
    match s.freeList.getLast? with
    | some i =>
      .ok ({ s with
              freeList := s.freeList.dropLast
              heap := Assoc.insert i (Block.zero n) s.heap }, i)
    | none =>
      .ok ({ s with
              nextIndex := s.nextIndex + 1
              heap := Assoc.insert s.nextIndex (Block.zero n) s.heap }, s.nextIndex)
  else .error .allocationExhausted

/-- `Reclaim(i)` (R36). -/
def State.reclaim (s : State) (i : Nat) : Except FatalCondition State :=
  if i = 0 || !s.live i then .error .invalidReclaim
  else .ok { s with heap := Assoc.erase i s.heap, freeList := s.freeList ++ [i] }

/-- `ReplaceZero(i)` (R37), called only with `i ≠ 0`. -/
def State.replaceZero (s : State) (i : Nat) : Except FatalCondition State :=
  match s.block i with
  | none => .error .outOfBoundsArray
  | some b => .ok { s with heap := Assoc.insert 0 b s.heap }

/-! ## Fetch and advance -/

/-- Loop step 1 and the read of step 2: the bounds check (R67), then the Word at offset `pc` of
Block 0 (R38, R68). -/
def State.fetch (s : State) : Except FatalCondition Word :=
  match s.block 0 with
  | none => .error .programCounterOutOfRange
  | some b =>
    if b.size.toNat ≤ s.pc.toNat then .error .programCounterOutOfRange
    else .ok (b.read s.pc.toNat)

/-- The advance of loop step 2, before the instruction executes (R68). -/
def State.advance (s : State) : State := { s with pc := s.pc + 1 }

/-! ## The I/O Adapter -/

/-- `Out(b)` (R98). -/
def State.emit (s : State) (b : Byte) : State := { s with out := s.out ++ [b] }

/-- Whether an Input's step is enabled: `eof = 1` or the token `in[in_pos]` exists (R102). -/
def State.inputReady (s : State) : Bool := s.eof || decide (s.inPos < s.input.length)

/-- `In()` (R99): the state after it and the Word it returns; `none` where it is not enabled. -/
def State.takeInput (s : State) : Option (State × Word) :=
  if s.eof then some (s, endOfStreamWord)
  else
    match s.input[s.inPos]? with
    | none => none
    | some .eos => some ({ s with inPos := s.inPos + 1, eof := true }, endOfStreamWord)
    | some (.byte b) => some ({ s with inPos := s.inPos + 1 }, byteWord b)

end Sys2Proof.Machine
end

