-- ==== Sys2Proof/Machine/Alu.lean ====
section
/-! DEFINITION. The register and arithmetic/logic instructions (41_register_alu.md). The step has
advanced `pc` already (R68); all register reads precede the write (R70). -/

namespace Sys2Proof.Machine

/-- R75: "If register C ≠ 0, set register A := register B." -/
def execCmov (a b c : Reg) (s : State) : Host.Outcome State Fault Refusal :=
  .next (if isNonZero (s.reg c) then s.setReg a (s.reg b) else s)

/-- R76: modulo 2^32, the carry is recorded nowhere. -/
def execAdd (a b c : Reg) (s : State) : Host.Outcome State Fault Refusal :=
  .next (s.setReg a (s.reg b + s.reg c))

/-- R77: the low 32 bits of the product. -/
def execMul (a b c : Reg) (s : State) : Host.Outcome State Fault Refusal :=
  .next (s.setReg a (s.reg b * s.reg c))

/-- R78: unsigned quotient; a divisor of 0 raises. -/
def execDiv (a b c : Reg) (s : State) : Host.Outcome State Fault Refusal :=
  s.orRaise (if isZeroDivisor (s.reg c) then .error .divisionByZero
    else .ok (s.setReg a (s.reg b / s.reg c)))

/-- R79: NOT of AND, over all 32 bits. -/
def execNand (a b c : Reg) (s : State) : Host.Outcome State Fault Refusal :=
  .next (s.setReg a (~~~(s.reg b &&& s.reg c)))

/-- R80: the zero-extended immediate. -/
def execOrth (r : Reg) (imm : BitVec 25) (s : State) : Host.Outcome State Fault Refusal :=
  .next (s.setReg r (immWord imm))

end Sys2Proof.Machine
end

