-- ==== Sys2Proof/Machine/Control.lean ====
section
/-! DEFINITION. The control instructions (43_control.md). -/

namespace Sys2Proof.Machine

/-- R93: a clean halt, `cause` 0. -/
def execHalt (s : State) : Host.Outcome State Fault Refusal :=
  .next { s with status := .halted, cause := none }

/-- R94: replace Block 0 unless `x[B] = 0`, then `pc <- x[C]`, which no increment follows. Both
registers are read before. -/
def execLoadp (b c : Reg) (s : State) : Host.Outcome State Fault Refusal :=
  s.orRaise ((if indexOfWord (s.reg b) = 0 then .ok s
    else s.replaceZero (indexOfWord (s.reg b))).map (fun t => { t with pc := s.reg c }))

end Sys2Proof.Machine
end

