-- ==== Sys2Proof/Machine/HeapInstr.lean ====
section
/-! DEFINITION. The heap instructions (42_heap_instructions.md). -/

namespace Sys2Proof.Machine

/-- R85: block index from B, offset from C, into A. -/
def execAidx (a b c : Reg) (s : State) : Host.Outcome State Fault Refusal :=
  s.orRaise ((s.memRead (indexOfWord (s.reg b)) (offsetOfWord (s.reg c))).map (s.setReg a))

/-- R86: block index from A, offset from B, value from C. -/
def execAmend (a b c : Reg) (s : State) : Host.Outcome State Fault Refusal :=
  s.orRaise (s.memWrite (indexOfWord (s.reg a)) (offsetOfWord (s.reg b)) (s.reg c))

/-- R87: the size is read from C before the index is written to B. -/
def execAlloc (b c : Reg) (s : State) : Host.Outcome State Fault Refusal :=
  s.orRaise ((s.alloc (s.reg c)).map (fun r => r.1.setReg b (wordOfIndex r.2)))

/-- R88. -/
def execAband (c : Reg) (s : State) : Host.Outcome State Fault Refusal :=
  s.orRaise (s.reclaim (indexOfWord (s.reg c)))

end Sys2Proof.Machine
end

