-- ==== Sys2Proof/Machine/Io.lean ====
section
/-! DEFINITION. The input and output instructions (44_io.md), and when a step is enabled. -/

namespace Sys2Proof.Machine

/-- R100: a value above 255 raises and is not truncated. -/
def execOut (c : Reg) (s : State) : Host.Outcome State Fault Refusal :=
  s.orRaise (if exceedsByte (s.reg c) then .error .outputRangeError
    else .ok (s.emit (lowByte (s.reg c))))

/-- R101. In a state in which the instruction is not enabled nothing happens; the loop does not
execute it there (R102, log entry 4). -/
def execInp (c : Reg) (s : State) : Host.Outcome State Fault Refusal :=
  match s.takeInput with
  | some (t, v) => .next (t.setReg c v)
  | none => .next s

/-- Whether the machine can take the step that executes `i` (R74): an Input waits for its token, an
Output and every other instruction is always enabled. -/
def State.enabled (s : State) : Instr → Bool
  | .inp _ => s.inputReady
  | .cmov _ _ _ | .aidx _ _ _ | .amend _ _ _ | .add _ _ _ | .mul _ _ _ | .div _ _ _ | .nand _ _ _
  | .halt | .alloc _ _ | .aband _ | .out _ | .loadp _ _ | .orth _ _ => true

end Sys2Proof.Machine
end

