-- ==== Sys2Proof/Machine/Loop.lean ====
section
/-! DEFINITION. The fetch-decode-execute loop's one pass (40_execution_loop.md R66), and the placing
of a program Word where that pass fetches. -/

namespace Sys2Proof.Machine

/-- R66: the five numbered steps of the loop. A machine that is `HALTED` takes no step (R71), and one
whose Input waits for a token takes none (R74): the answer is then the state as it was (log
entries 4 and 5). -/
def runStep (s : State) : Host.Outcome State Fault Refusal :=
  match s.status with
  | .halted => .next s
  | .running =>
    match s.fetch with
    | .error k => .next (s.raise k)
    | .ok w =>
      match decode w with
      | .error (.unknownOpcode _) => .next (s.advance.raise .unknownOpcode)
      | .ok i => if s.enabled i then exec i s.advance else .next s

/-- Block 0 with the Word `w` at offset `o`, grown so that it has that offset. -/
def placeWord (b : Block) (o : Word) (w : Word) : Block :=
  { b with size := if b.size.toNat ≤ o.toNat then o + 1 else b.size }.write o.toNat w

/-- What the host's placing of a program Word does (log entry 11): the machine is `RUNNING` and Block
0 holds `w` at offset `pc`. No block has the offset 2^32 - 1 (R17), so there `pc` becomes 0. -/
def State.placeProgramWord (s : State) (w : Word) : State :=
  let p : Word := if s.pc = BitVec.allOnes 32 then 0 else s.pc
  let b : Block := (s.block 0).getD (Block.zero 0)
  { s with
    pc := p
    status := .running
    cause := none
    heap := Assoc.insert 0 (placeWord b p w) s.heap }

end Sys2Proof.Machine
end

