-- ==== Sys2Proof/Machine/Step.lean ====
section
/-! DEFINITION. The one step of the machine, and the placing of the Word it fetches next. -/

namespace Sys2Proof.Machine

/-- One step: one instruction, or one fatal condition (40_execution_loop.md R65, R66). -/
def step (s : State) : Host.Outcome State Fault Refusal := runStep s

/-- `s` with the `nbits`-bit Word `w` stored at offset `pc` of Block 0, where `step` fetches. -/
def State.withFetchWord (s : State) (nbits w : Nat) : State :=
  s.placeProgramWord (BitVec.ofNat 32 (w % 2 ^ nbits))

end Sys2Proof.Machine
end

