-- ==== Sys2Proof/Machine/Launch.lean ====
section
/-! DEFINITION. What the host does to the machine (70_reset_and_hazards.md R130 to R136): the Loader's
grouping of image bytes (20_memory.md R40), reset with an image, and the supply of input tokens.
None of these is a step. -/

namespace Sys2Proof.Machine

/-- The state after reset and load (R27, R131, R132) for the three open parameters. The host may reset in
any state (D12); the result depends on no earlier state, so nothing of an earlier run survives (R130).
For an image of at most 2^32 - 1 Words (`Image.wf`). -/
def State.launch (image : List Word) (input : List Token) (admission : AllocAdmit) : State :=
  { State.reset with
    heap := [(0, Block.ofWords image)]
    input := input
    allocAdmit := admission }

/-- Four image bytes as one Word: the first in bits 31 to 24, the last in bits 7 to 0 (R40). -/
def Loader.word (b0 b1 b2 b3 : Byte) : Word :=
  BitVec.ofNat 32 (b0.toNat * 2 ^ 24 + b1.toNat * 2 ^ 16 + b2.toNat * 2 ^ 8 + b3.toNat)

/-- The Loader (outside the core, R3): big-endian groups of four bytes, or `MalformedImage` when the
number of bytes is not a multiple of 4 (R40, R109). -/
def Loader.image : List Byte → Except FatalCondition (List Word)
  | [] => .ok []
  | b0 :: b1 :: b2 :: b3 :: rest => (Loader.image rest).map (Loader.word b0 b1 b2 b3 :: ·)
  | _ => .error .malformedImage

/-- The boot order of R133: Loader, reset and load; a malformed image never starts a run. -/
def Loader.boot (bytes : List Byte) (input : List Token) (admission : AllocAdmit) :
    Except FatalCondition State :=
  (Loader.image bytes).map (fun image => State.launch image input admission)

/-- The host supplies one more input token (R102, R136). -/
def State.supply (s : State) (t : Token) : State := { s with input := s.input ++ [t] }

end Sys2Proof.Machine
end

