-- ==== Sys2Proof/Safety.lean ====
section
/-! DEFINITION. The terms the statements are made in: what one reads at a heap address, the frames
(what an instruction leaves alone), the invariant of the machine, and what a safe run is. -/

namespace Sys2Proof.Machine

/-! ## Reading the heap -/

/-- The Word at heap address `(i, o)`; `none` where the address is not valid (20_memory.md R30). -/
def State.peek (s : State) (i o : Nat) : Option Word := (s.memRead i o).toOption

/-- The block at index `i` reads the same in both states, cell by cell, and is as live and as long. -/
def SameBlock (i : Nat) (s t : State) : Prop :=
  t.live i = s.live i ∧ t.size i = s.size i ∧ ∀ o, t.peek i o = s.peek i o

/-- Every address of the heap reads the same. -/
def SameHeap (s t : State) : Prop := ∀ i, SameBlock i s t

/-! ## Frames: what is left as it was -/

/-- No register differs. -/
def SameRegs (s t : State) : Prop := ∀ r : Reg, t.reg r = s.reg r

/-- No register but `d` differs. -/
def SameRegsBut (d : Reg) (s t : State) : Prop := ∀ r : Reg, r ≠ d → t.reg r = s.reg r

/-- The allocator's state (R18, R19). -/
def SameIndices (s t : State) : Prop := t.freeList = s.freeList ∧ t.nextIndex = s.nextIndex

/-- The engine's control state but `pc` (R20, R21). -/
def SameEngine (s t : State) : Prop := t.status = s.status ∧ t.cause = s.cause

/-- What has been consumed of the input stream (R24). -/
def SameInput (s t : State) : Prop := t.inPos = s.inPos ∧ t.eof = s.eof

/-- The launch parameters `in` and `alloc_admit`, which no instruction changes. -/
def SameLaunch (s t : State) : Prop := t.input = s.input ∧ t.allocAdmit = s.allocAdmit

/-- All but the registers and the heap. -/
def SameRest (s t : State) : Prop :=
  t.pc = s.pc ∧ SameIndices s t ∧ SameEngine s t ∧ SameInput s t ∧ t.out = s.out ∧ SameLaunch s t

/-- Nothing but register `d` differs: the frame of an instruction that writes one register only. -/
def OnlyReg (d : Reg) (s t : State) : Prop := SameRegsBut d s t ∧ SameHeap s t ∧ SameRest s t

/-- The state a fatal condition leaves (60_exceptions.md R108): `HALTED` with the condition's cause, and
everything else as the instruction found it. -/
def Raised (k : FatalCondition) (s t : State) : Prop :=
  t.status = .halted ∧ t.cause = some k ∧ t.pc = s.pc ∧ SameRegs s t ∧ SameHeap s t ∧
  SameIndices s t ∧ SameInput s t ∧ t.out = s.out ∧ SameLaunch s t

/-- Every Word of operation code `op` decodes to the instruction `mk` makes of its fields A, B, C, taken
from the bit positions of 30_encoding.md R51. -/
def StandardWords (op : BitVec 4) (mk : Reg → Reg → Reg → Instr) : Prop :=
  ∀ w : Word, w.extractLsb' 28 4 = op →
    decode w = .ok (mk (w.extractLsb' 6 3).toFin (w.extractLsb' 3 3).toFin (w.extractLsb' 0 3).toFin)

/-! ## The invariant -/

/-- What every reachable state meets. -/
structure State.Inv (s : State) : Prop where
  /-- The heap keeps its canonical form (log entry 1). -/
  canonicalHeap : Memory.wf s.heap
  /-- R16 (a): index 0 is live. -/
  programLive : s.live 0 = true
  /-- R18: each free index stands once on the Free List. -/
  freeOnce : s.freeList.Nodup
  /-- R18, R19: the Free List holds exactly the indices below `next_index` that are not live. -/
  freeExact : ∀ i, i ∈ s.freeList ↔ i < s.nextIndex ∧ s.live i = false
  /-- R19: every index at or above `next_index` is unassigned. -/
  liveBelow : ∀ i, s.live i = true → i < s.nextIndex
  /-- D17: an index that was abandoned was named by a Word. -/
  freeNameable : ∀ i ∈ s.freeList, i < 2 ^ 32
  /-- R21: `status = RUNNING` with `cause != 0` is unreachable. -/
  runningClean : s.status = .running → s.cause = none
  /-- R109: the core never raises `MalformedImage`. -/
  causeOfCore : s.cause ≠ some .malformedImage
  /-- R24: only tokens the host has supplied are consumed. -/
  consumedSupplied : s.inPos ≤ s.input.length
  /-- R24: the latch is set exactly when an `eos` token has been consumed. -/
  latchExact : s.eof = true ↔ Token.eos ∈ s.input.take s.inPos

/-! ## Runs -/

/-- `t` comes after `s` in a run: by steps of the machine and input tokens supplied by the host, the only
moves there are while the machine runs (R136). -/
inductive Reaches (s : State) : State → Prop
  | here : Reaches s s
  | step {t u : State} : Reaches s t → step t = .next u → Reaches s u
  | supply {t : State} (k : Token) : Reaches s t → Reaches s (t.supply k)

/-- A safe run of `n` steps: no fatal condition within them. -/
def SafeFor (n : Nat) (s : State) : Prop :=
  ∃ t, Host.Core.run core n s = .next t ∧ t.cause = none

/-- A run that has ended well (R73): `HALTED` by Halt. -/
def State.HaltedCleanly (s : State) : Prop := s.status = .halted ∧ s.cause = none

end Sys2Proof.Machine
end

