-- ==== Sys2Proof/Certificates/Slice0/Obligations.lean ====
section
/-! DEFINITION. The statements for the provers. The statements about one instruction give its encoding,
its result and its frame; they hold for every form, since no register is special and every register
number may coincide with every other. -/

open Sys2Proof Sys2Proof.Machine

/-! ## Encoding -/

/-- 30_encoding.md section 5, `Decode(Encode(t)) = t`: every instruction, every operand. -/
def Obligations.DecodeOfEncodeIsIdentity : Prop :=
  ∀ i : Instr, decode (encode i) = .ok i

/-- 30_encoding.md section 5, `Encode(Decode(w)) = w` exactly when `w` is canonical. -/
def Obligations.EncodeOfDecodeIsCanonicalWord : Prop :=
  ∀ (w : Word) (i : Instr), decode w = .ok i → (encode i = w ↔ canonical w = true)

/-- R51: the four fields of the Standard layout, for every operation code but 13. -/
def Obligations.StandardLayoutFields : Prop :=
  ∀ w : Word, w.extractLsb' 28 4 ≠ 13#4 →
    codec w = .std (w.extractLsb' 28 4).toFin (w.extractLsb' 6 3).toFin (w.extractLsb' 3 3).toFin
      (w.extractLsb' 0 3).toFin

/-- R52: the three fields of the Orthography layout, for operation code 13. -/
def Obligations.OrthographyLayoutFields : Prop :=
  ∀ w : Word, w.extractLsb' 28 4 = 13#4 →
    codec w = .orth (w.extractLsb' 25 3).toFin (w.extractLsb' 0 25)

/-- R55, R56: the opcode map, by the mask `0xF0000000` and the match value of each row; codes 14 and 15
are rejected. -/
def Obligations.OpcodeMapByMaskAndMatch : Prop :=
  ∀ w : Word,
    let a : Reg := (w.extractLsb' 6 3).toFin
    let b : Reg := (w.extractLsb' 3 3).toFin
    let c : Reg := (w.extractLsb' 0 3).toFin
    (w &&& 0xF0000000#32 = 0x00000000#32 → decode w = .ok (.cmov a b c)) ∧
    (w &&& 0xF0000000#32 = 0x10000000#32 → decode w = .ok (.aidx a b c)) ∧
    (w &&& 0xF0000000#32 = 0x20000000#32 → decode w = .ok (.amend a b c)) ∧
    (w &&& 0xF0000000#32 = 0x30000000#32 → decode w = .ok (.add a b c)) ∧
    (w &&& 0xF0000000#32 = 0x40000000#32 → decode w = .ok (.mul a b c)) ∧
    (w &&& 0xF0000000#32 = 0x50000000#32 → decode w = .ok (.div a b c)) ∧
    (w &&& 0xF0000000#32 = 0x60000000#32 → decode w = .ok (.nand a b c)) ∧
    (w &&& 0xF0000000#32 = 0x70000000#32 → decode w = .ok .halt) ∧
    (w &&& 0xF0000000#32 = 0x80000000#32 → decode w = .ok (.alloc b c)) ∧
    (w &&& 0xF0000000#32 = 0x90000000#32 → decode w = .ok (.aband c)) ∧
    (w &&& 0xF0000000#32 = 0xA0000000#32 → decode w = .ok (.out c)) ∧
    (w &&& 0xF0000000#32 = 0xB0000000#32 → decode w = .ok (.inp c)) ∧
    (w &&& 0xF0000000#32 = 0xC0000000#32 → decode w = .ok (.loadp b c)) ∧
    (w &&& 0xF0000000#32 = 0xD0000000#32 →
      decode w = .ok (.orth (w.extractLsb' 25 3).toFin (w.extractLsb' 0 25))) ∧
    (w &&& 0xF0000000#32 = 0xE0000000#32 → decode w = .error (.unknownOpcode 14)) ∧
    (w &&& 0xF0000000#32 = 0xF0000000#32 → decode w = .error (.unknownOpcode 15))

/-- 30_encoding.md section 4 (R57, R58, the spec's decision D6): two Words that differ only in bits the
instruction does not use are the same instruction. -/
def Obligations.IgnoredBitsHaveNoEffect : Prop :=
  ∀ w v : Word, w.extractLsb' 28 4 = v.extractLsb' 28 4 →
    (w.extractLsb' 28 4 ≠ 13#4 → w.extractLsb' 0 9 = v.extractLsb' 0 9 → decode w = decode v) ∧
    (w.extractLsb' 28 4 = 7#4 → decode w = decode v) ∧
    (w.extractLsb' 28 4 = 8#4 ∨ w.extractLsb' 28 4 = 12#4 →
      w.extractLsb' 0 6 = v.extractLsb' 0 6 → decode w = decode v) ∧
    (w.extractLsb' 28 4 = 9#4 ∨ w.extractLsb' 28 4 = 10#4 ∨ w.extractLsb' 28 4 = 11#4 →
      w.extractLsb' 0 3 = v.extractLsb' 0 3 → decode w = decode v)

/-- 95_test_vectors.md sections 1 (S2), 2.1 and 2.5 (V-I5): one Word of each family, as the spec writes it
out. -/
def Obligations.SpecWordsDecode : Prop :=
  decode 0x300000D1#32 = .ok (.add 3 2 1) ∧
  decode 0xDB234567#32 = .ok (.orth 5 0x1234567#25) ∧
  decode 0x10000153#32 = .ok (.aidx 5 2 3) ∧
  decode 0x2000009C#32 = .ok (.amend 2 3 4) ∧
  decode 0x800001D1#32 = .ok (.alloc 2 1) ∧
  decode 0xC0000010#32 = .ok (.loadp 2 0) ∧
  decode 0xB0000001#32 = .ok (.inp 1) ∧
  decode 0x7FFFFFFF#32 = .ok .halt

/-! ## The step -/

/-- 40_execution_loop.md R66, R68, R70: a running machine whose Word at `(0, pc)` decodes to `i`, with a
token where `i` is an Input, executes `i` in the state with `pc` advanced by one. -/
def Obligations.StepRunsDecodedInstruction : Prop :=
  ∀ (s : State) (w : Word) (i : Instr),
    s.status = .running → s.memRead 0 s.pc.toNat = .ok w → decode w = .ok i →
    ((∃ c, i = .inp c) → s.eof = true ∨ s.inPos < s.input.length) →
    step s = exec i { s with pc := s.pc + 1 }

/-- 10_state.md section 2 (R13): the Instruction Pointer. It is `pc + 1` while the instruction fetched at `pc`
executes and after it, for every instruction but a Load Program that completes, after which it is
`x[C]`. -/
def Obligations.PcAdvancesUnlessLoadProgram : Prop :=
  ∀ (s : State) (w : Word) (i : Instr),
    s.status = .running → s.memRead 0 s.pc.toNat = .ok w → decode w = .ok i →
    ((∃ c, i = .inp c) → s.eof = true ∨ s.inPos < s.input.length) →
    ∃ t, step s = .next t ∧ exec i { s with pc := s.pc + 1 } = .next t ∧
      ((∀ b c, i ≠ .loadp b c) → t.pc = s.pc + 1) ∧
      (∀ b c, i = .loadp b c →
        (t.status = .running → t.pc = s.reg c) ∧ (t.status = .halted → t.pc = s.pc + 1))

/-- 10_state.md section 2 (wrap-around, the spec's decision D3): where an instruction is fetched, the
increment does not wrap. -/
def Obligations.PcIncrementNeverWraps : Prop :=
  ∀ (s : State) (w : Word), s.memRead 0 s.pc.toNat = .ok w → (s.pc + 1).toNat = s.pc.toNat + 1

/-- 40_execution_loop.md R67 and 60_exceptions.md R116 (the spec's decision D2): `pc >= size(0)` raises
`ProgramCounterOutOfRange`, whatever else the state holds, and leaves `pc`. -/
def Obligations.FetchBeyondBlockZeroRaises : Prop :=
  ∀ s : State, s.status = .running → s.size 0 ≤ s.pc.toNat →
    ∃ t, step s = .next t ∧ Raised .programCounterOutOfRange s t

/-- R110: operation codes 14 and 15, whatever the other bits; the cause has code 2, and `pc` is the offset of
the Word plus 1. -/
def Obligations.IllegalOpcodeRaises : Prop :=
  ∀ (s : State) (w : Word), s.status = .running → s.memRead 0 s.pc.toNat = .ok w →
    (w.extractLsb' 28 4 = 14#4 ∨ w.extractLsb' 28 4 = 15#4) →
    ∃ t, step s = .next t ∧ Raised .unknownOpcode { s with pc := s.pc + 1 } t ∧
      causeCode t.cause = 2#4

/-- 40_execution_loop.md R71: a halted machine takes no step, for any number of attempts. That the answer
is then the state as it was is the model's choice (log entry 5). -/
def Obligations.HaltedStateNeverChanges : Prop :=
  ∀ (s : State) (n : Nat), s.status = .halted → Host.Core.run core n s = .next s

/-- 40_execution_loop.md R74 and 44_io.md R102 (the spec's decision D10): an Input whose token does not
exist and whose stream has not ended is not executed; the whole state, `pc` included, stays. That the
answer is then the state as it was is the model's choice (log entry 4). -/
def Obligations.InputHoldsUntilSupplied : Prop :=
  ∀ (s : State) (w : Word) (c : Reg), s.status = .running → s.memRead 0 s.pc.toNat = .ok w →
    decode w = .ok (.inp c) → s.eof = false → s.input.length ≤ s.inPos →
    step s = .next s ∧
    ∀ k, s.inPos = s.input.length → ∃ t, step (s.supply k) = .next t ∧ t.pc = s.pc + 1

/-- 70_reset_and_hazards.md section 2: whatever a running machine holds, what its step does is defined. That
the step answers a next state also from a `HALTED` state and from one held at an Input, where the spec
takes no step, and that a fatal condition is a next state and no fault, are the model's choices (log
entries 4, 5 and 6). -/
def Obligations.StepIsAlwaysDefined : Prop :=
  ∀ s : State, ∃ t, step s = .next t

/-- R72: the state machine. Only Halt and the fatal conditions leave `RUNNING`, with the cause the table
gives; `HALTED` is left by nothing but a reset. -/
def Obligations.StateMachineTransitions : Prop :=
  (∀ image input admission, (State.launch image input admission).status = .running ∧
    (State.launch image input admission).cause = none) ∧
  (∀ s t : State, s.status = .running → s.cause = none → step s = .next t →
    (t.status = .running ∧ t.cause = none ∧
      ∀ w, s.memRead 0 s.pc.toNat = .ok w → decode w ≠ .ok .halt) ∨
    (t.status = .halted ∧ t.cause = none ∧
      ∃ w, s.memRead 0 s.pc.toNat = .ok w ∧ decode w = .ok .halt) ∨
    (t.status = .halted ∧ ∃ k, t.cause = some k ∧ 1 < (causeCode (some k)).toNat ∧
      (causeCode (some k)).toNat ≤ 9 ∧ ∀ w, s.memRead 0 s.pc.toNat = .ok w → decode w ≠ .ok .halt)) ∧
  (∀ s t : State, s.status = .halted → step s = .next t → t.status = .halted ∧ t.cause = s.cause) ∧
  (∀ (s : State) (k : Token), (s.supply k).status = s.status ∧ (s.supply k).cause = s.cause)

/-! ## Registers and arithmetic -/

/-- 10_state.md section 1 (R11): the register file is a pure store; no register is hardwired and no two numbers alias. -/
def Obligations.RegisterFileIsPureStore : Prop :=
  ∀ (s : State) (r : Reg) (v : Word),
    (s.setReg r v).reg r = v ∧ OnlyReg r s (s.setReg r v)

/-- R75: Conditional Move. -/
def Obligations.ConditionalMoveTestsWholeWord : Prop :=
  StandardWords 0#4 .cmov ∧
  ∀ (a b c : Reg) (s : State), ∃ t, exec (.cmov a b c) s = .next t ∧ OnlyReg a s t ∧
    ((s.reg c).toNat ≠ 0 → t.reg a = s.reg b) ∧ ((s.reg c).toNat = 0 → t.reg a = s.reg a)

/-- R76: Addition modulo 2^32. -/
def Obligations.AdditionWraps : Prop :=
  StandardWords 3#4 .add ∧
  ∀ (a b c : Reg) (s : State), ∃ t, exec (.add a b c) s = .next t ∧ OnlyReg a s t ∧
    (t.reg a).toNat = ((s.reg b).toNat + (s.reg c).toNat) % 2 ^ 32

/-- R77: Multiplication modulo 2^32. -/
def Obligations.MultiplicationWraps : Prop :=
  StandardWords 4#4 .mul ∧
  ∀ (a b c : Reg) (s : State), ∃ t, exec (.mul a b c) s = .next t ∧ OnlyReg a s t ∧
    (t.reg a).toNat = ((s.reg b).toNat * (s.reg c).toNat) % 2 ^ 32

/-- R78: unsigned Division, and its zero divisor. -/
def Obligations.DivisionIsUnsignedFloor : Prop :=
  StandardWords 5#4 .div ∧
  ∀ (a b c : Reg) (s : State),
    ((s.reg c).toNat ≠ 0 → ∃ t, exec (.div a b c) s = .next t ∧ OnlyReg a s t ∧
      (t.reg a).toNat = (s.reg b).toNat / (s.reg c).toNat) ∧
    ((s.reg c).toNat = 0 → ∃ t, exec (.div a b c) s = .next t ∧ Raised .divisionByZero s t)

/-- R79: NAND, bit by bit. -/
def Obligations.NandOfEveryBit : Prop :=
  StandardWords 6#4 .nand ∧
  ∀ (a b c : Reg) (s : State), ∃ t, exec (.nand a b c) s = .next t ∧ OnlyReg a s t ∧
    ∀ k : Nat, k < 32 → (t.reg a).getLsbD k = !((s.reg b).getLsbD k && (s.reg c).getLsbD k)

/-- R80: Orthography. -/
def Obligations.OrthographyZeroExtends : Prop :=
  (∀ w : Word, w.extractLsb' 28 4 = 13#4 →
    decode w = .ok (.orth (w.extractLsb' 25 3).toFin (w.extractLsb' 0 25))) ∧
  ∀ (r : Reg) (imm : BitVec 25) (s : State), ∃ t, exec (.orth r imm) s = .next t ∧ OnlyReg r s t ∧
    (t.reg r).toNat = imm.toNat

/-- 41_register_alu.md R83, the last row but one: NAND, Orthography and Addition negate a Word. -/
def Obligations.NegationIdiom : Prop :=
  ∀ (a b d : Reg) (s : State), a ≠ d →
    ∃ s1 s2 s3, exec (.nand a b b) s = .next s1 ∧ exec (.orth d 1) s1 = .next s2 ∧
      exec (.add a a d) s2 = .next s3 ∧
      ((s3.reg a).toNat + (s.reg b).toNat) % 2 ^ 32 = 0

/-! ## The heap manager -/

/-- R33: `MemRead`, its failures and their order; with R30, the Word is read at a valid address only. -/
def Obligations.MemReadContract : Prop :=
  ∀ (s : State) (i o : Nat),
    (s.live i = false → s.memRead i o = .error .outOfBoundsArray) ∧
    (s.live i = true → s.size i ≤ o → s.memRead i o = .error .outOfBoundsOffset) ∧
    (s.live i = true → o < s.size i → ∃ b, s.block i = some b ∧ s.memRead i o = .ok (b.read o))

/-- R34: `MemWrite`: the failures of `MemRead`, and the one cell it changes. -/
def Obligations.MemWriteContract : Prop :=
  ∀ (s : State) (i o : Nat) (v : Word),
    (s.live i = false → s.memWrite i o v = .error .outOfBoundsArray) ∧
    (s.live i = true → s.size i ≤ o → s.memWrite i o v = .error .outOfBoundsOffset) ∧
    (s.live i = true → o < s.size i → ∃ t, s.memWrite i o v = .ok t ∧
      t.peek i o = some v ∧
      (∀ j p, (j, p) ≠ (i, o) → t.peek j p = s.peek j p) ∧
      (∀ j, t.live j = s.live j ∧ t.size j = s.size j) ∧
      SameRegs s t ∧ SameRest s t)

/-- R36: `Reclaim`, with the new block of zeros that an allocation taking the index creates. -/
def Obligations.ReclaimContract : Prop :=
  ∀ (s : State) (i : Nat),
    (i = 0 ∨ s.live i = false → s.reclaim i = .error .invalidReclaim) ∧
    (i ≠ 0 → s.live i = true → ∃ t, s.reclaim i = .ok t ∧ t.live i = false ∧
      t.freeList = s.freeList ++ [i] ∧ t.nextIndex = s.nextIndex ∧
      (∀ j, j ≠ i → SameBlock j s t) ∧ t.reclaim i = .error .invalidReclaim ∧
      (∀ (n : Word) (u : State), t.alloc n = .ok (u, i) →
        u.size i = n.toNat ∧ ∀ o, o < n.toNat → u.peek i o = some 0#32) ∧
      SameRegs s t ∧ t.pc = s.pc ∧ SameEngine s t ∧ SameInput s t ∧ t.out = s.out ∧ SameLaunch s t)

/-- R37: `ReplaceZero` with a source index that is not zero; the source block stays, and a later write to
one of the two blocks does not change the other. -/
def Obligations.ReplaceZeroContract : Prop :=
  ∀ (s : State) (i : Nat), i ≠ 0 →
    (s.live i = false → s.replaceZero i = .error .outOfBoundsArray) ∧
    (s.live i = true → ∃ t, s.replaceZero i = .ok t ∧
      t.live 0 = true ∧ t.size 0 = s.size i ∧ (∀ o, t.peek 0 o = s.peek i o) ∧
      (∀ j, j ≠ 0 → SameBlock j s t) ∧ SameRegs s t ∧ SameRest s t ∧
      ∀ (o : Nat) (v : Word) (u : State),
        (t.memWrite i o v = .ok u → SameBlock 0 t u) ∧ (t.memWrite 0 o v = .ok u → SameBlock i t u))

/-! ## Heap instructions -/

/-- R85: Array Index, its two conditions and their order. -/
def Obligations.ArrayIndexLoads : Prop :=
  StandardWords 1#4 .aidx ∧
  ∀ (a b c : Reg) (s : State),
    (s.live (s.reg b).toNat = true → (s.reg c).toNat < s.size (s.reg b).toNat →
      ∃ t, exec (.aidx a b c) s = .next t ∧ OnlyReg a s t ∧
        s.peek (s.reg b).toNat (s.reg c).toNat = some (t.reg a)) ∧
    (s.live (s.reg b).toNat = false →
      ∃ t, exec (.aidx a b c) s = .next t ∧ Raised .outOfBoundsArray s t) ∧
    (s.live (s.reg b).toNat = true → s.size (s.reg b).toNat ≤ (s.reg c).toNat →
      ∃ t, exec (.aidx a b c) s = .next t ∧ Raised .outOfBoundsOffset s t)

/-- R86: Array Amendment. The address stored to is (`indexOfWord x[A]`, `offsetOfWord x[B]`); every other
address reads as before. -/
def Obligations.ArrayAmendmentStores : Prop :=
  StandardWords 2#4 .amend ∧
  ∀ (a b c : Reg) (s : State),
    (s.live (indexOfWord (s.reg a)) = true →
      offsetOfWord (s.reg b) < s.size (indexOfWord (s.reg a)) →
      ∃ t, exec (.amend a b c) s = .next t ∧
        t.peek (indexOfWord (s.reg a)) (offsetOfWord (s.reg b)) = some (s.reg c) ∧
        (∀ j p, (j, p) ≠ (indexOfWord (s.reg a), offsetOfWord (s.reg b)) → t.peek j p = s.peek j p) ∧
        (∀ j, t.live j = s.live j ∧ t.size j = s.size j) ∧ SameRegs s t ∧ SameRest s t) ∧
    (s.live (indexOfWord (s.reg a)) = false →
      ∃ t, exec (.amend a b c) s = .next t ∧ Raised .outOfBoundsArray s t) ∧
    (s.live (indexOfWord (s.reg a)) = true →
      s.size (indexOfWord (s.reg a)) ≤ offsetOfWord (s.reg b) →
      ∃ t, exec (.amend a b c) s = .next t ∧ Raised .outOfBoundsOffset s t)

/-- 42_heap_instructions.md R87 and 20_memory.md R35: an admitted Allocation makes the last freed index, or
the next unused one, a live block of `x[C]` zero Words and writes the index to `x[B]`. The admission test
is the spec's own decision D8; what is written for an index that no Word can name is a free value
(log entry 8), so the statement says nothing of it. -/
def Obligations.AllocationCreatesZeroBlock : Prop :=
  (∀ w : Word, w.extractLsb' 28 4 = 8#4 →
    decode w = .ok (.alloc (w.extractLsb' 3 3).toFin (w.extractLsb' 0 3).toFin)) ∧
  ∀ (b c : Reg) (s : State), s.admits (s.reg c) = true →
    ∃ t, exec (.alloc b c) s = .next t ∧
      (s.nextAllocIndex < 2 ^ 32 → (t.reg b).toNat = s.nextAllocIndex) ∧
      t.live s.nextAllocIndex = true ∧ t.size s.nextAllocIndex = (s.reg c).toNat ∧
      (∀ o, o < (s.reg c).toNat → t.peek s.nextAllocIndex o = some 0#32) ∧
      (∀ j, j ≠ s.nextAllocIndex → SameBlock j s t) ∧
      (∀ l i, s.freeList = l ++ [i] → s.nextAllocIndex = i ∧ t.freeList = l ∧ t.nextIndex = s.nextIndex) ∧
      (s.freeList = [] →
        s.nextAllocIndex = s.nextIndex ∧ t.freeList = [] ∧ t.nextIndex = s.nextIndex + 1) ∧
      SameRegsBut b s t ∧ t.pc = s.pc ∧ SameEngine s t ∧ SameInput s t ∧ t.out = s.out ∧ SameLaunch s t

/-- 60_exceptions.md R117 (the spec's decision D8): with the default admission no Allocation is refused;
where the admission test refuses, `AllocationExhausted` is raised and nothing else changes. -/
def Obligations.AllocationRefusedByAdmission : Prop :=
  (∀ (s : State) (n : Word), s.allocAdmit = .always → s.admits n = true) ∧
  ∀ (b c : Reg) (s : State), s.admits (s.reg c) = false →
    ∃ t, exec (.alloc b c) s = .next t ∧ Raised .allocationExhausted s t

/-- R88: Abandonment, and the three ways it is invalid (index 0, free, unassigned). -/
def Obligations.AbandonmentFreesIndex : Prop :=
  (∀ w : Word, w.extractLsb' 28 4 = 9#4 → decode w = .ok (.aband (w.extractLsb' 0 3).toFin)) ∧
  ∀ (c : Reg) (s : State),
    ((s.reg c).toNat ≠ 0 → s.live (s.reg c).toNat = true →
      ∃ t, exec (.aband c) s = .next t ∧ t.live (s.reg c).toNat = false ∧
        t.freeList = s.freeList ++ [(s.reg c).toNat] ∧ t.nextIndex = s.nextIndex ∧
        (∀ j, j ≠ (s.reg c).toNat → SameBlock j s t) ∧
        SameRegs s t ∧ t.pc = s.pc ∧ SameEngine s t ∧ SameInput s t ∧ t.out = s.out ∧ SameLaunch s t) ∧
    ((s.reg c).toNat = 0 ∨ s.live (s.reg c).toNat = false →
      ∃ t, exec (.aband c) s = .next t ∧ Raised .invalidReclaim s t)

/-! ## Control -/

/-- 43_control.md section 1: Halt. The last clause, that a step after it answers the state as it was, is the
model's choice for a machine that takes no further step (log entry 5). -/
def Obligations.HaltEndsRunCleanly : Prop :=
  (∀ w : Word, w.extractLsb' 28 4 = 7#4 → decode w = .ok .halt) ∧
  ∀ s : State, ∃ t, exec .halt s = .next t ∧ t.status = .halted ∧ t.cause = none ∧
    t.pc = s.pc ∧ SameRegs s t ∧ SameHeap s t ∧ SameIndices s t ∧ SameInput s t ∧ t.out = s.out ∧
    SameLaunch s t ∧ step t = .next t

/-- R94: Load Program: the plain jump, the replacement of Block 0, the index that is not live, and a target
beyond the block, which the next step reports. -/
def Obligations.LoadProgramReplacesAndJumps : Prop :=
  (∀ w : Word, w.extractLsb' 28 4 = 12#4 →
    decode w = .ok (.loadp (w.extractLsb' 3 3).toFin (w.extractLsb' 0 3).toFin)) ∧
  ∀ (b c : Reg) (s : State),
    ((s.reg b).toNat = 0 → ∃ t, exec (.loadp b c) s = .next t ∧ t.pc = s.reg c ∧ SameRegs s t ∧
      SameHeap s t ∧ SameIndices s t ∧ SameEngine s t ∧ SameInput s t ∧ t.out = s.out ∧ SameLaunch s t) ∧
    ((s.reg b).toNat ≠ 0 → s.live (s.reg b).toNat = true →
      ∃ t, exec (.loadp b c) s = .next t ∧ t.pc = s.reg c ∧ t.live 0 = true ∧
        t.size 0 = s.size (s.reg b).toNat ∧ (∀ o, t.peek 0 o = s.peek (s.reg b).toNat o) ∧
        (∀ j, j ≠ 0 → SameBlock j s t) ∧ SameRegs s t ∧ SameIndices s t ∧ SameEngine s t ∧
        SameInput s t ∧ t.out = s.out ∧ SameLaunch s t) ∧
    ((s.reg b).toNat ≠ 0 → s.live (s.reg b).toNat = false →
      ∃ t, exec (.loadp b c) s = .next t ∧ Raised .outOfBoundsArray s t) ∧
    (∀ t, s.status = .running → exec (.loadp b c) s = .next t → t.status = .running →
      t.size 0 ≤ (s.reg c).toNat →
      ∃ u, step t = .next u ∧ u.pc = s.reg c ∧ Raised .programCounterOutOfRange t u)

/-- 43_control.md R96, second row: Conditional Move and Load Program of index 0 jump to one of two targets. -/
def Obligations.ConditionalJumpIdiom : Prop :=
  ∀ (d e c z : Reg) (s : State), z ≠ d → (s.reg z).toNat = 0 →
    ∃ s1 s2, exec (.cmov d e c) s = .next s1 ∧ exec (.loadp z d) s1 = .next s2 ∧
      ((s.reg c).toNat ≠ 0 → s2.pc = s.reg e) ∧ ((s.reg c).toNat = 0 → s2.pc = s.reg d) ∧
      SameHeap s s2 ∧ s2.cause = s.cause

/-- 70_reset_and_hazards.md section 3 (R144): a Load Program of a live block `i` other than 0 completes and
copies. A write to block `i` after it leaves the program what block `i` held before the Load Program, and
a write to Block 0 leaves block `i` as it was before; both writes are possible at every offset of the
block. -/
def Obligations.LoadProgramCopiesDoNotAlias : Prop :=
  ∀ (b c : Reg) (s : State), (s.reg b).toNat ≠ 0 → s.live (s.reg b).toNat = true →
    ∃ t, exec (.loadp b c) s = .next t ∧ ∀ (o : Nat) (v : Word),
      (o < s.size (s.reg b).toNat →
        (∃ u, t.memWrite (s.reg b).toNat o v = .ok u) ∧ ∃ u, t.memWrite 0 o v = .ok u) ∧
      (∀ u, t.memWrite (s.reg b).toNat o v = .ok u →
        u.live 0 = true ∧ u.size 0 = s.size (s.reg b).toNat ∧
        ∀ p, u.peek 0 p = s.peek (s.reg b).toNat p) ∧
      (∀ u, t.memWrite 0 o v = .ok u → SameBlock (s.reg b).toNat s u)

/-! ## Input and output -/

/-- R100: Output: a byte is emitted whole, a larger value raises and emits nothing. -/
def Obligations.OutputEmitsByteOrRaises : Prop :=
  (∀ w : Word, w.extractLsb' 28 4 = 10#4 → decode w = .ok (.out (w.extractLsb' 0 3).toFin)) ∧
  ∀ (c : Reg) (s : State),
    ((s.reg c).toNat ≤ 255 → ∃ (t : State) (v : Byte), exec (.out c) s = .next t ∧
      v.toNat = (s.reg c).toNat ∧ t.out = s.out ++ [v] ∧ SameRegs s t ∧ SameHeap s t ∧
      t.pc = s.pc ∧ SameIndices s t ∧ SameEngine s t ∧ SameInput s t ∧ SameLaunch s t) ∧
    (255 < (s.reg c).toNat → ∃ t, exec (.out c) s = .next t ∧ Raised .outputRangeError s t)

/-- 44_io.md R99, R101 in the token representation of the spec's decision D10: a byte is zero-extended, the
end of the stream sets the latch and yields all ones, and a set latch yields all ones for no token. -/
def Obligations.InputReadsNextToken : Prop :=
  (∀ w : Word, w.extractLsb' 28 4 = 11#4 → decode w = .ok (.inp (w.extractLsb' 0 3).toFin)) ∧
  ∀ (c : Reg) (s : State), s.eof = true ∨ s.inPos < s.input.length →
    ∃ t, exec (.inp c) s = .next t ∧ SameRegsBut c s t ∧ SameHeap s t ∧ t.pc = s.pc ∧
      SameIndices s t ∧ SameEngine s t ∧ t.out = s.out ∧ SameLaunch s t ∧
      (s.eof = true → (t.reg c).toNat = 2 ^ 32 - 1 ∧ SameInput s t) ∧
      (s.eof = false → t.inPos = s.inPos + 1) ∧
      (s.eof = false → s.input[s.inPos]? = some .eos → (t.reg c).toNat = 2 ^ 32 - 1 ∧ t.eof = true) ∧
      (∀ v, s.eof = false → s.input[s.inPos]? = some (.byte v) →
        (t.reg c).toNat = v.toNat ∧ t.eof = false)

/-- R103: once an Input has returned the sentinel, every later Input does, whatever the host supplies and
whatever steps lie between. -/
def Obligations.EndOfStreamIsPermanent : Prop :=
  ∀ (s t u : State) (c d : Reg), s.eof = true ∨ s.inPos < s.input.length →
    exec (.inp c) s = .next t → t.reg c = 0xFFFFFFFF#32 → Reaches t u →
    ∃ v, exec (.inp d) u = .next v ∧ v.reg d = 0xFFFFFFFF#32

/-- R98: `Out` appends its byte, an Output that does not raise appends exactly one, and the output only
grows, at its end, by one byte at most in a step. -/
def Obligations.OutputOnlyGrows : Prop :=
  (∀ (s : State) (b : Byte), (s.emit b).out = s.out ++ [b]) ∧
  (∀ (c : Reg) (s t : State), s.cause = none → exec (.out c) s = .next t → t.cause = none →
    ∃ b, t.out = s.out ++ [b]) ∧
  (∀ s t : State, step s = .next t → t.out = s.out ∨ ∃ b, t.out = s.out ++ [b]) ∧
  (∀ s t : State, Reaches s t → s.out <+: t.out)

/-- 10_state.md section 7 (the spec's decision D10) and 00_scope.md section 4: a step consumes one token at
most, never lowers the latch, and never touches the launch parameters `in` and `alloc_admit`. -/
def Obligations.StepConsumesAtMostOneToken : Prop :=
  ∀ s t : State, step s = .next t →
    SameLaunch s t ∧ (SameInput s t ∨ (t.inPos = s.inPos + 1 ∧ s.eof = false ∧ s.inPos < s.input.length))

/-! ## Fatal conditions -/

/-- 60_exceptions.md R106: the codes are the spec's decision D4; no two causes share one. -/
def Obligations.CauseCodesAreDistinct : Prop :=
  (∀ k m : Option FatalCondition, causeCode k = causeCode m → k = m) ∧
  (∀ k : Option FatalCondition, (causeCode k).toNat ≤ 9) ∧
  causeCode none = 0#4 ∧ causeCode (some .malformedImage) = 1#4 ∧
  causeCode (some .unknownOpcode) = 2#4 ∧ causeCode (some .outOfBoundsArray) = 3#4 ∧
  causeCode (some .outOfBoundsOffset) = 4#4 ∧ causeCode (some .invalidReclaim) = 5#4 ∧
  causeCode (some .divisionByZero) = 6#4 ∧ causeCode (some .outputRangeError) = 7#4 ∧
  causeCode (some .programCounterOutOfRange) = 8#4 ∧ causeCode (some .allocationExhausted) = 9#4

/-- 60_exceptions.md R108, R120: a step that raises changes status and cause, and the registers, the heap,
the allocator and the streams are those of before; `pc` is advanced but for `ProgramCounterOutOfRange`. -/
def Obligations.FatalConditionsArePrecise : Prop :=
  ∀ (s t : State) (k : FatalCondition), s.status = .running → s.cause = none →
    step s = .next t → t.cause = some k →
    Raised k { s with pc := t.pc } t ∧
    (k = .programCounterOutOfRange → t.pc = s.pc) ∧
    (k ≠ .programCounterOutOfRange → t.pc = s.pc + 1)

/-- 60_exceptions.md R107: the conditions each instruction can raise. -/
def Obligations.ConditionsOfEachInstruction : Prop :=
  ∀ (i : Instr) (s t : State) (k : FatalCondition), s.cause = none → exec i s = .next t →
    t.cause = some k →
    match i with
    | .aidx _ _ _ | .amend _ _ _ => k = .outOfBoundsArray ∨ k = .outOfBoundsOffset
    | .div _ _ _ => k = .divisionByZero
    | .alloc _ _ => k = .allocationExhausted
    | .aband _ => k = .invalidReclaim
    | .out _ => k = .outputRangeError
    | .loadp _ _ => k = .outOfBoundsArray
    | .cmov _ _ _ | .add _ _ _ | .mul _ _ _ | .nand _ _ _ | .halt | .inp _ | .orth _ _ => False

/-- R109: the Loader raises `MalformedImage`, code 1, exactly when the number of bytes is not a multiple of 4, before
any run; the core never raises it. -/
def Obligations.MalformedImageIsLoaderOnly : Prop :=
  causeCode (some .malformedImage) = 1#4 ∧
  (∀ bytes : List Byte, bytes.length % 4 ≠ 0 →
    Loader.image bytes = .error .malformedImage ∧
    ∀ input admission, Loader.boot bytes input admission = .error .malformedImage) ∧
  (∀ bytes : List Byte, bytes.length % 4 = 0 → ∃ image, Loader.image bytes = .ok image ∧
    image.length * 4 = bytes.length) ∧
  (∀ s t : State, s.cause ≠ some .malformedImage → step s = .next t →
    t.cause ≠ some .malformedImage)

/-! ## The allocator -/

/-- R16: index 0 is live in every state of a run; blocks of different indices do not share cells; the
index freed last is reused first, before any new one is minted. -/
def Obligations.HeapInvariantsOfTheSpec : Prop :=
  (∀ image input admission t, Reaches (State.launch image input admission) t → t.live 0 = true) ∧
  (∀ s t : State, s.live 0 = true → step s = .next t → t.live 0 = true) ∧
  (∀ (s t : State) (i j o : Nat) (v : Word), i ≠ j → s.memWrite i o v = .ok t → SameBlock j s t) ∧
  (∀ (s t : State) (i : Nat), s.reclaim i = .ok t → t.freeList = s.freeList ++ [i]) ∧
  (∀ (s t : State) (n : Word) (i : Nat), s.alloc n = .ok (t, i) →
    (s.freeList ≠ [] → s.freeList = t.freeList ++ [i] ∧ t.nextIndex = s.nextIndex) ∧
    (s.freeList = [] → i = s.nextIndex ∧ t.freeList = [] ∧ t.nextIndex = s.nextIndex + 1))

/-- R15: in a state that meets the invariant each index is live, free or unassigned, and in one of them
only. -/
def Obligations.EachIndexIsInOneState : Prop :=
  ∀ s : State, s.Inv → ∀ i : Nat,
    (s.live i = true ∧ i ∉ s.freeList ∧ i < s.nextIndex) ∨
    (s.live i = false ∧ i ∈ s.freeList ∧ i < s.nextIndex) ∨
    (s.live i = false ∧ i ∉ s.freeList ∧ s.nextIndex ≤ i)

/-- 20_memory.md R35, corner cases: the index an Allocation takes is not 0 and was not live. -/
def Obligations.AllocatedIndexWasNotLive : Prop :=
  ∀ (s t : State) (n : Word) (i : Nat), s.Inv → s.alloc n = .ok (t, i) →
    i ≠ 0 ∧ s.live i = false ∧ (i ∉ s.freeList → s.freeList = [] ∧ i = s.nextIndex)

/-- 20_memory.md section 9, the first law: allocate, reclaim, allocate gives the same index, of the new
request's size. -/
def Obligations.ReclaimedIndexIsReusedAtOnce : Prop :=
  ∀ (s s1 s2 : State) (n m : Word) (i : Nat), s.Inv → s.alloc n = .ok (s1, i) →
    s1.reclaim i = .ok s2 → s2.admits m = true →
    ∃ s3, s2.alloc m = .ok (s3, i) ∧ s3.size i = m.toNat ∧ s3.nextIndex = s1.nextIndex ∧
      s3.freeList = s1.freeList

/-- 20_memory.md section 9, the second law: `p` then `q` reclaimed, the next two allocations return `q`
then `p`. -/
def Obligations.TwoReclaimedIndicesReturnInReverse : Prop :=
  ∀ (s s1 s2 s3 : State) (n m : Word) (p q i : Nat),
    s.reclaim p = .ok s1 → s1.reclaim q = .ok s2 → s2.alloc n = .ok (s3, i) → s3.admits m = true →
    i = q ∧ ∃ s4, s3.alloc m = .ok (s4, p) ∧ s4.freeList = s.freeList ∧ s4.nextIndex = s.nextIndex

/-- 42_heap_instructions.md R90: the index an Allocation returns depends on the Free List and `next_index`
alone, not on sizes, contents, registers or streams. -/
def Obligations.AllocatedIndexIsDetermined : Prop :=
  ∀ (s s' t t' : State) (n n' : Word) (i i' : Nat),
    s.freeList = s'.freeList → s.nextIndex = s'.nextIndex →
    s.alloc n = .ok (t, i) → s'.alloc n' = .ok (t', i') →
    i = i' ∧ t.freeList = t'.freeList ∧ t.nextIndex = t'.nextIndex

/-! ## Memory and program -/

/-- 70_reset_and_hazards.md R141, 20_memory.md R45: a Word stored by Array Amendment is what an Array Index
of the same address returns in the next instruction. -/
def Obligations.StoredWordIsLoadedNext : Prop :=
  ∀ (a b c d e f : Reg) (s t : State), exec (.amend a b c) s = .next t → t.cause = s.cause →
    t.reg e = s.reg a → t.reg f = s.reg b → s.cause = none →
    ∃ u, exec (.aidx d e f) t = .next u ∧ u.reg d = s.reg c

/-- 20_memory.md R48, 70_reset_and_hazards.md R142: a store to Block 0 at the offset the next step fetches
from is what that step executes. -/
def Obligations.StoreToProgramIsFetchedNext : Prop :=
  ∀ (s : State) (w : Word) (a b c : Reg) (i : Instr),
    s.status = .running → s.memRead 0 s.pc.toNat = .ok w → decode w = .ok (.amend a b c) →
    s.reg a = 0#32 → s.reg b = s.pc + 1 → (s.pc + 1).toNat < s.size 0 →
    decode (s.reg c) = .ok i → (∀ d, i ≠ .inp d) →
    ∃ t, step s = .next t ∧ t.status = .running ∧ step t = exec i { t with pc := s.pc + 1 + 1 }

/-! ## Reset and load -/

/-- 10_state.md R27, 70_reset_and_hazards.md R131, R132: the state after reset and load, for every image of
at most 2^32 - 1 Words. Some of its values are the spec's decisions D5, D9, D10, D13. -/
def Obligations.LaunchStateIsTheResetTable : Prop :=
  ∀ (image : List Word) (input : List Token) (admission : AllocAdmit), Image.wf image →
    let s := State.launch image input admission
    (∀ r : Reg, s.reg r = 0#32) ∧ s.pc = 0#32 ∧
    s.size 0 = image.length ∧ (∀ k, s.peek 0 k = image[k]?) ∧ (∀ i, s.live i = true ↔ i = 0) ∧
    s.freeList = [] ∧ s.nextIndex = 1 ∧ s.status = .running ∧ s.cause = none ∧
    s.inPos = 0 ∧ s.eof = false ∧ s.out = [] ∧ s.input = input ∧ s.allocAdmit = admission

/-- `State.reset` is the launch with the empty image, the empty input stream and the default admission: the
model's choice of the three open parameters (log entries 2, 3, 7). -/
def Obligations.ResetIsEmptyLaunch : Prop :=
  State.reset = State.launch [] [.eos] .always

/-- 20_memory.md R40 (the placing of the four bytes is the spec's from general knowledge, G2): Word `k` of
the image is made of bytes `4k` to `4k+3`, the first one highest. -/
def Obligations.LoaderGroupsBigEndian : Prop :=
  ∀ (bytes : List Byte) (image : List Word), Loader.image bytes = .ok image →
    ∀ k w, image[k]? = some w →
      bytes[4 * k]? = some (w.extractLsb' 24 8) ∧ bytes[4 * k + 1]? = some (w.extractLsb' 16 8) ∧
      bytes[4 * k + 2]? = some (w.extractLsb' 8 8) ∧ bytes[4 * k + 3]? = some (w.extractLsb' 0 8)

/-! ## The invariant -/

/-- 10_state.md sections 4 to 7: the invariant is kept by every step, from every state that meets it. -/
def Obligations.StepKeepsTheStateInvariant : Prop :=
  ∀ s t : State, s.Inv → step s = .next t → t.Inv

/-- The invariant holds at reset. -/
def Obligations.ResetMeetsTheStateInvariant : Prop := State.reset.Inv

/-- What the host does keeps the invariant: reset with any image of at most 2^32 - 1 Words, and the supply of
a token. -/
def Obligations.HostMovesMeetTheStateInvariant : Prop :=
  (∀ image input admission, Image.wf image → (State.launch image input admission).Inv) ∧
  (∀ (s : State) (k : Token), s.Inv → (s.supply k).Inv)
end

