-- ==== Sys2Proof/Laws/State.lean ====
section
/-! SUPPORT. One lemma per field for each named update of the State, so that no later proof unfolds a
record update; and the register file as a store. -/

namespace Sys2Proof.Machine

/-! ## Registers -/

theorem State.reg_setReg (s : State) (r q : Reg) (v : Word) :
    (s.setReg r v).reg q = if r = q then v else s.reg q := by
  simp [State.setReg, State.reg, Vector.getElem_set, Fin.ext_iff]

@[simp] theorem State.reg_setReg_same (s : State) (r : Reg) (v : Word) :
    (s.setReg r v).reg r = v := by simp [State.reg_setReg]

theorem State.reg_setReg_other (s : State) {r q : Reg} (v : Word) (h : q ≠ r) :
    (s.setReg r v).reg q = s.reg q := by simp [State.reg_setReg, h.symm]

/-! ## `setReg` -/

@[simp] theorem State.setReg_pc (s : State) (r : Reg) (v : Word) : (s.setReg r v).pc = s.pc := rfl
@[simp] theorem State.setReg_heap (s : State) (r : Reg) (v : Word) : (s.setReg r v).heap = s.heap := rfl
@[simp] theorem State.setReg_freeList (s : State) (r : Reg) (v : Word) : (s.setReg r v).freeList = s.freeList := rfl
@[simp] theorem State.setReg_nextIndex (s : State) (r : Reg) (v : Word) : (s.setReg r v).nextIndex = s.nextIndex := rfl
@[simp] theorem State.setReg_status (s : State) (r : Reg) (v : Word) : (s.setReg r v).status = s.status := rfl
@[simp] theorem State.setReg_cause (s : State) (r : Reg) (v : Word) : (s.setReg r v).cause = s.cause := rfl
@[simp] theorem State.setReg_input (s : State) (r : Reg) (v : Word) : (s.setReg r v).input = s.input := rfl
@[simp] theorem State.setReg_inPos (s : State) (r : Reg) (v : Word) : (s.setReg r v).inPos = s.inPos := rfl
@[simp] theorem State.setReg_eof (s : State) (r : Reg) (v : Word) : (s.setReg r v).eof = s.eof := rfl
@[simp] theorem State.setReg_out (s : State) (r : Reg) (v : Word) : (s.setReg r v).out = s.out := rfl
@[simp] theorem State.setReg_allocAdmit (s : State) (r : Reg) (v : Word) : (s.setReg r v).allocAdmit = s.allocAdmit := rfl
@[simp] theorem State.setReg_block (s : State) (r : Reg) (v : Word) (i : Nat) : (s.setReg r v).block i = s.block i := rfl

/-! ## `raise` -/

@[simp] theorem State.raise_x (s : State) (k : FatalCondition) : (s.raise k).x = s.x := rfl
@[simp] theorem State.raise_pc (s : State) (k : FatalCondition) : (s.raise k).pc = s.pc := rfl
@[simp] theorem State.raise_heap (s : State) (k : FatalCondition) : (s.raise k).heap = s.heap := rfl
@[simp] theorem State.raise_freeList (s : State) (k : FatalCondition) : (s.raise k).freeList = s.freeList := rfl
@[simp] theorem State.raise_nextIndex (s : State) (k : FatalCondition) : (s.raise k).nextIndex = s.nextIndex := rfl
@[simp] theorem State.raise_status (s : State) (k : FatalCondition) : (s.raise k).status = .halted := rfl
@[simp] theorem State.raise_cause (s : State) (k : FatalCondition) : (s.raise k).cause = some k := rfl
@[simp] theorem State.raise_input (s : State) (k : FatalCondition) : (s.raise k).input = s.input := rfl
@[simp] theorem State.raise_inPos (s : State) (k : FatalCondition) : (s.raise k).inPos = s.inPos := rfl
@[simp] theorem State.raise_eof (s : State) (k : FatalCondition) : (s.raise k).eof = s.eof := rfl
@[simp] theorem State.raise_out (s : State) (k : FatalCondition) : (s.raise k).out = s.out := rfl
@[simp] theorem State.raise_allocAdmit (s : State) (k : FatalCondition) : (s.raise k).allocAdmit = s.allocAdmit := rfl
@[simp] theorem State.raise_reg (s : State) (k : FatalCondition) (r : Reg) : (s.raise k).reg r = s.reg r := rfl
@[simp] theorem State.raise_block (s : State) (k : FatalCondition) (i : Nat) : (s.raise k).block i = s.block i := rfl

/-! ## `advance` -/

@[simp] theorem State.advance_x (s : State) : (s.advance).x = s.x := rfl
@[simp] theorem State.advance_pc (s : State) : (s.advance).pc = s.pc + 1 := rfl
@[simp] theorem State.advance_heap (s : State) : (s.advance).heap = s.heap := rfl
@[simp] theorem State.advance_freeList (s : State) : (s.advance).freeList = s.freeList := rfl
@[simp] theorem State.advance_nextIndex (s : State) : (s.advance).nextIndex = s.nextIndex := rfl
@[simp] theorem State.advance_status (s : State) : (s.advance).status = s.status := rfl
@[simp] theorem State.advance_cause (s : State) : (s.advance).cause = s.cause := rfl
@[simp] theorem State.advance_input (s : State) : (s.advance).input = s.input := rfl
@[simp] theorem State.advance_inPos (s : State) : (s.advance).inPos = s.inPos := rfl
@[simp] theorem State.advance_eof (s : State) : (s.advance).eof = s.eof := rfl
@[simp] theorem State.advance_out (s : State) : (s.advance).out = s.out := rfl
@[simp] theorem State.advance_allocAdmit (s : State) : (s.advance).allocAdmit = s.allocAdmit := rfl
@[simp] theorem State.advance_reg (s : State) (r : Reg) : (s.advance).reg r = s.reg r := rfl
@[simp] theorem State.advance_block (s : State) (i : Nat) : (s.advance).block i = s.block i := rfl

/-! ## `emit` -/

@[simp] theorem State.emit_x (s : State) (b : Byte) : (s.emit b).x = s.x := rfl
@[simp] theorem State.emit_pc (s : State) (b : Byte) : (s.emit b).pc = s.pc := rfl
@[simp] theorem State.emit_heap (s : State) (b : Byte) : (s.emit b).heap = s.heap := rfl
@[simp] theorem State.emit_freeList (s : State) (b : Byte) : (s.emit b).freeList = s.freeList := rfl
@[simp] theorem State.emit_nextIndex (s : State) (b : Byte) : (s.emit b).nextIndex = s.nextIndex := rfl
@[simp] theorem State.emit_status (s : State) (b : Byte) : (s.emit b).status = s.status := rfl
@[simp] theorem State.emit_cause (s : State) (b : Byte) : (s.emit b).cause = s.cause := rfl
@[simp] theorem State.emit_input (s : State) (b : Byte) : (s.emit b).input = s.input := rfl
@[simp] theorem State.emit_inPos (s : State) (b : Byte) : (s.emit b).inPos = s.inPos := rfl
@[simp] theorem State.emit_eof (s : State) (b : Byte) : (s.emit b).eof = s.eof := rfl
@[simp] theorem State.emit_out (s : State) (b : Byte) : (s.emit b).out = s.out ++ [b] := rfl
@[simp] theorem State.emit_allocAdmit (s : State) (b : Byte) : (s.emit b).allocAdmit = s.allocAdmit := rfl
@[simp] theorem State.emit_reg (s : State) (b : Byte) (r : Reg) : (s.emit b).reg r = s.reg r := rfl
@[simp] theorem State.emit_block (s : State) (b : Byte) (i : Nat) : (s.emit b).block i = s.block i := rfl

/-! ## `supply` -/

@[simp] theorem State.supply_x (s : State) (k : Token) : (s.supply k).x = s.x := rfl
@[simp] theorem State.supply_pc (s : State) (k : Token) : (s.supply k).pc = s.pc := rfl
@[simp] theorem State.supply_heap (s : State) (k : Token) : (s.supply k).heap = s.heap := rfl
@[simp] theorem State.supply_freeList (s : State) (k : Token) : (s.supply k).freeList = s.freeList := rfl
@[simp] theorem State.supply_nextIndex (s : State) (k : Token) : (s.supply k).nextIndex = s.nextIndex := rfl
@[simp] theorem State.supply_status (s : State) (k : Token) : (s.supply k).status = s.status := rfl
@[simp] theorem State.supply_cause (s : State) (k : Token) : (s.supply k).cause = s.cause := rfl
@[simp] theorem State.supply_input (s : State) (k : Token) : (s.supply k).input = s.input ++ [k] := rfl
@[simp] theorem State.supply_inPos (s : State) (k : Token) : (s.supply k).inPos = s.inPos := rfl
@[simp] theorem State.supply_eof (s : State) (k : Token) : (s.supply k).eof = s.eof := rfl
@[simp] theorem State.supply_out (s : State) (k : Token) : (s.supply k).out = s.out := rfl
@[simp] theorem State.supply_allocAdmit (s : State) (k : Token) : (s.supply k).allocAdmit = s.allocAdmit := rfl
@[simp] theorem State.supply_reg (s : State) (k : Token) (r : Reg) : (s.supply k).reg r = s.reg r := rfl
@[simp] theorem State.supply_block (s : State) (k : Token) (i : Nat) : (s.supply k).block i = s.block i := rfl

end Sys2Proof.Machine
end

