-- ==== Sys2Proof/Laws/Memory.lean ====
section
/-! SUPPORT. The laws of the sparse lists, of a Block and of the Heap: a read after a write, and that
every operation keeps the canonical form. -/

namespace Sys2Proof.Machine

/-! ## Sparse lists -/

section Assoc
variable {α : Type}

@[simp] theorem Assoc.lookup_insert_same (k : Nat) (v : α) (l : List (Nat × α)) :
    Assoc.lookup k (Assoc.insert k v l) = some v := by
  induction l with
  | nil => simp [Assoc.insert, Assoc.lookup]
  | cons p l ih =>
    obtain ⟨j, u⟩ := p
    simp only [Assoc.insert]
    split
    · simp [Assoc.lookup]
    · split
      · simp [Assoc.lookup]
      · simp [Assoc.lookup, *]

theorem Assoc.lookup_insert_other {k j : Nat} (h : j ≠ k) (v : α) (l : List (Nat × α)) :
    Assoc.lookup j (Assoc.insert k v l) = Assoc.lookup j l := by
  induction l with
  | nil => simp [Assoc.insert, Assoc.lookup, h.symm]
  | cons p l ih =>
    obtain ⟨m, u⟩ := p
    simp only [Assoc.insert]
    split
    · simp [Assoc.lookup, h.symm]
    · split
      · subst m; simp [Assoc.lookup, h.symm]
      · simp [Assoc.lookup, ih]

theorem Assoc.lookup_insert (k j : Nat) (v : α) (l : List (Nat × α)) :
    Assoc.lookup j (Assoc.insert k v l) = if j = k then some v else Assoc.lookup j l := by
  split
  · subst j; simp
  · exact Assoc.lookup_insert_other ‹_› v l

@[simp] theorem Assoc.lookup_erase_same (k : Nat) (l : List (Nat × α)) :
    Assoc.lookup k (Assoc.erase k l) = none := by
  induction l with
  | nil => rfl
  | cons p l ih =>
    simp only [Assoc.erase]
    split
    · exact ih
    · simp [Assoc.lookup, *]

theorem Assoc.lookup_erase_other {k j : Nat} (h : j ≠ k) (l : List (Nat × α)) :
    Assoc.lookup j (Assoc.erase k l) = Assoc.lookup j l := by
  induction l with
  | nil => rfl
  | cons p l ih =>
    simp only [Assoc.erase]
    split
    · subst k; rw [ih]; simp [Assoc.lookup, h.symm]
    · simp [Assoc.lookup, ih]

theorem Assoc.lookup_erase (k j : Nat) (l : List (Nat × α)) :
    Assoc.lookup j (Assoc.erase k l) = if j = k then none else Assoc.lookup j l := by
  split
  · subst j; simp
  · exact Assoc.lookup_erase_other ‹_› l

theorem Assoc.mem_of_mem_insert {k : Nat} {v : α} {l : List (Nat × α)} {p : Nat × α}
    (h : p ∈ Assoc.insert k v l) : p = (k, v) ∨ p ∈ l := by
  induction l with
  | nil => simpa [Assoc.insert] using h
  | cons q l ih =>
    simp only [Assoc.insert] at h
    split at h
    · simpa using h
    · split at h
      · simp only [List.mem_cons] at h ⊢; tauto
      · simp only [List.mem_cons] at h ⊢
        rcases h with h | h
        · exact .inr (.inl h)
        · rcases ih h with h | h
          · exact .inl h
          · exact .inr (.inr h)

theorem Assoc.mem_of_mem_erase {k : Nat} {l : List (Nat × α)} {p : Nat × α}
    (h : p ∈ Assoc.erase k l) : p ∈ l := by
  induction l with
  | nil => exact h
  | cons q l ih =>
    simp only [Assoc.erase] at h
    split at h
    · exact .tail _ (ih h)
    · rcases List.mem_cons.1 h with h | h
      · exact h ▸ .head _
      · exact .tail _ (ih h)

theorem Assoc.mem_of_lookup {k : Nat} {v : α} {l : List (Nat × α)}
    (h : Assoc.lookup k l = some v) : (k, v) ∈ l := by
  induction l with
  | nil => cases h
  | cons p l ih =>
    obtain ⟨j, u⟩ := p
    simp only [Assoc.lookup] at h
    split at h
    · cases h; subst j; exact .head _
    · exact .tail _ (ih h)

theorem Assoc.sorted_insert (k : Nat) (v : α) {l : List (Nat × α)} (h : Assoc.sorted l) :
    Assoc.sorted (Assoc.insert k v l) := by
  induction l with
  | nil => simp [Assoc.insert, Assoc.sorted]
  | cons p l ih =>
    obtain ⟨j, u⟩ := p
    obtain ⟨hj, hl⟩ := List.pairwise_cons.1 h
    simp only [Assoc.insert]
    split
    · refine List.pairwise_cons.2 ⟨fun q hq => ?_, h⟩
      rcases List.mem_cons.1 hq with rfl | hq
      · assumption
      · exact Nat.lt_trans ‹k < j› (hj q hq)
    · split
      · subst j; exact List.pairwise_cons.2 ⟨hj, hl⟩
      · refine List.pairwise_cons.2 ⟨fun q hq => ?_, ih hl⟩
        rcases Assoc.mem_of_mem_insert hq with rfl | hq
        · show j < k; omega
        · exact hj q hq

theorem Assoc.sorted_erase (k : Nat) {l : List (Nat × α)} (h : Assoc.sorted l) :
    Assoc.sorted (Assoc.erase k l) := by
  induction l with
  | nil => exact h
  | cons p l ih =>
    obtain ⟨hp, hl⟩ := List.pairwise_cons.1 h
    simp only [Assoc.erase]
    split
    · exact ih hl
    · exact List.pairwise_cons.2 ⟨fun q hq => hp q (Assoc.mem_of_mem_erase hq), ih hl⟩

/-- Equal sparse lists are equal data: two sorted lists that read the same are the same list. -/
theorem Assoc.eq_of_lookup_eq {l m : List (Nat × α)} (hl : Assoc.sorted l) (hm : Assoc.sorted m)
    (h : ∀ k, Assoc.lookup k l = Assoc.lookup k m) : l = m := by
  have none_of_lt : ∀ {n : List (Nat × α)} {k : Nat}, (∀ p ∈ n, k < p.1) → Assoc.lookup k n = none := by
    intro n k hn
    rcases hk : Assoc.lookup k n with _ | v
    · rfl
    · exact absurd (hn _ (Assoc.mem_of_lookup hk)) (Nat.lt_irrefl _)
  induction l generalizing m with
  | nil =>
    cases m with
    | nil => rfl
    | cons q m => simpa [Assoc.lookup] using h q.1
  | cons p l ih =>
    cases m with
    | nil => simpa [Assoc.lookup] using h p.1
    | cons q m =>
      obtain ⟨j, u⟩ := p
      obtain ⟨k, v⟩ := q
      obtain ⟨hj, hl'⟩ := List.pairwise_cons.1 hl
      obtain ⟨hk, hm'⟩ := List.pairwise_cons.1 hm
      have hjk : j = k := by
        rcases Nat.lt_trichotomy j k with hlt | heq | hlt
        · have e := h j
          rw [none_of_lt (n := (k, v) :: m) (by
            intro p hp
            rcases List.mem_cons.1 hp with rfl | hp
            · exact hlt
            · exact Nat.lt_trans hlt (hk p hp))] at e
          simp [Assoc.lookup] at e
        · exact heq
        · have e := h k
          rw [none_of_lt (n := (j, u) :: l) (by
            intro p hp
            rcases List.mem_cons.1 hp with rfl | hp
            · exact hlt
            · exact Nat.lt_trans hlt (hj p hp))] at e
          simp [Assoc.lookup] at e
      subst k
      have huv : u = v := by simpa [Assoc.lookup] using h j
      subst v
      refine congrArg _ (ih hl' hm' fun k => ?_)
      by_cases e : j = k
      · subst k; rw [none_of_lt hj, none_of_lt hk]
      · simpa [Assoc.lookup, e] using h k

end Assoc

/-! ## Blocks -/

@[simp] theorem Block.write_size (b : Block) (o : Nat) (v : Word) : (b.write o v).size = b.size := rfl

@[simp] theorem Block.zero_size (n : Word) : (Block.zero n).size = n := rfl

@[simp] theorem Block.zero_read (n : Word) (o : Nat) : (Block.zero n).read o = 0#32 := rfl

theorem Block.read_write (b : Block) (o p : Nat) (v : Word) :
    (b.write o v).read p = if p = o then v else b.read p := by
  unfold Block.write Block.read
  by_cases hv : v = 0#32
  · simp only [hv, if_true, Assoc.lookup_erase]
    split <;> rfl
  · simp only [hv, if_false, Assoc.lookup_insert]
    split <;> rfl

theorem Block.zero_wf (n : Word) : (Block.zero n).wf := by
  simp [Block.zero, Block.wf, Assoc.sorted]

theorem Block.write_wf {b : Block} {o : Nat} (hb : b.wf) (ho : o < b.size.toNat) (v : Word) :
    (b.write o v).wf := by
  by_cases hv : v = 0#32
  · simp only [Block.write, hv, if_true]
    exact ⟨Assoc.sorted_erase o hb.1, fun p hp => hb.2 p (Assoc.mem_of_mem_erase hp)⟩
  · simp only [Block.write, hv, if_false]
    refine ⟨Assoc.sorted_insert o v hb.1, fun p hp => ?_⟩
    rcases Assoc.mem_of_mem_insert hp with rfl | hp
    · exact ⟨ho, hv⟩
    · exact hb.2 p hp

theorem lookup_cellsOfWords (ws : List Word) (o p : Nat) :
    (Assoc.lookup p (cellsOfWords o ws)).getD 0#32 = if o ≤ p then ws[p - o]?.getD 0#32 else 0#32 := by
  induction ws generalizing o with
  | nil => simp [cellsOfWords, Assoc.lookup]
  | cons w ws ih =>
    have step : ∀ h : o ≠ p, (if o + 1 ≤ p then ws[p - (o + 1)]?.getD 0#32 else 0#32)
        = if o ≤ p then (w :: ws)[p - o]?.getD 0#32 else 0#32 := by
      intro h
      by_cases hp : o + 1 ≤ p
      · rw [if_pos hp, if_pos (by omega), show p - o = (p - (o + 1)) + 1 by omega]
        simp
      · rw [if_neg hp, if_neg (by omega)]
    by_cases h : o = p
    · subst p
      by_cases hw : w = 0#32
      · have hlt : ¬ (o + 1 ≤ o) := by omega
        simp only [cellsOfWords, hw, if_true, ih]
        simp
      · simp only [cellsOfWords, if_neg hw, Assoc.lookup, if_true, Nat.le_refl, Nat.sub_self]
        rfl
    · by_cases hw : w = 0#32
      · simp only [cellsOfWords, if_pos hw, ih, step h]
      · simp only [cellsOfWords, if_neg hw, Assoc.lookup, if_neg h, ih, step h]

/-- A block made of a sequence of Words reads as that sequence (R132). -/
theorem Block.read_ofWords (ws : List Word) (o : Nat) :
    (Block.ofWords ws).read o = ws[o]?.getD 0#32 := by
  simpa [Block.ofWords, Block.read] using lookup_cellsOfWords ws 0 o

theorem Block.ofWords_size {ws : List Word} (h : Image.wf ws) :
    (Block.ofWords ws).size.toNat = ws.length := by
  have : ws.length ≤ 2 ^ 32 - 1 := h
  simp only [Block.ofWords, BitVec.toNat_ofNat]
  omega

theorem mem_cellsOfWords {ws : List Word} {o : Nat} {p : Nat × Word}
    (h : p ∈ cellsOfWords o ws) : o ≤ p.1 ∧ p.1 < o + ws.length ∧ p.2 ≠ 0#32 := by
  induction ws generalizing o with
  | nil => cases h
  | cons w ws ih =>
    simp only [cellsOfWords] at h
    have later : p ∈ cellsOfWords (o + 1) ws → o ≤ p.1 ∧ p.1 < o + (w :: ws).length ∧ p.2 ≠ 0#32 := by
      intro h
      have := ih h
      simp only [List.length_cons]
      exact ⟨by omega, by omega, this.2.2⟩
    split at h
    · exact later h
    · rcases List.mem_cons.1 h with rfl | h
      · exact ⟨Nat.le_refl _, by simp, ‹_›⟩
      · exact later h

theorem sorted_cellsOfWords (ws : List Word) (o : Nat) : Assoc.sorted (cellsOfWords o ws) := by
  induction ws generalizing o with
  | nil => exact List.Pairwise.nil
  | cons w ws ih =>
    simp only [cellsOfWords]
    split
    · exact ih _
    · exact List.pairwise_cons.2 ⟨fun p hp => (mem_cellsOfWords hp).1, ih _⟩

theorem Block.ofWords_wf {ws : List Word} (h : Image.wf ws) : (Block.ofWords ws).wf := by
  refine ⟨sorted_cellsOfWords ws 0, fun p hp => ?_⟩
  have := mem_cellsOfWords hp
  rw [Block.ofWords_size h]
  exact ⟨by omega, this.2.2⟩

/-! ## The Heap -/

theorem Memory.wf_insert {m : Memory} (h : Memory.wf m) (i : Nat) {b : Block} (hb : b.wf) :
    Memory.wf (Assoc.insert i b m) :=
  ⟨Assoc.sorted_insert i b h.1, fun p hp => by
    rcases Assoc.mem_of_mem_insert hp with rfl | hp
    · exact hb
    · exact h.2 p hp⟩

theorem Memory.wf_erase {m : Memory} (h : Memory.wf m) (i : Nat) : Memory.wf (Assoc.erase i m) :=
  ⟨Assoc.sorted_erase i h.1, fun p hp => h.2 p (Assoc.mem_of_mem_erase hp)⟩

theorem State.block_wf {s : State} (h : Memory.wf s.heap) {i : Nat} {b : Block}
    (hb : s.block i = some b) : b.wf := h.2 _ (Assoc.mem_of_lookup hb)

theorem State.reset_wf : Memory.wf State.reset.heap := by decide

theorem State.launch_wf {image : List Word} (h : Image.wf image) (input : List Token)
    (admission : AllocAdmit) : Memory.wf (State.launch image input admission).heap := by
  refine ⟨List.pairwise_singleton _ _, fun p hp => ?_⟩
  rw [State.launch, List.mem_singleton] at hp
  subst hp
  exact Block.ofWords_wf h

theorem State.memWrite_wf {s t : State} {i o : Nat} {v : Word} (h : Memory.wf s.heap)
    (e : s.memWrite i o v = .ok t) : Memory.wf t.heap := by
  unfold State.memWrite at e
  split at e
  · cases e
  · split at e
    · cases e
    · cases e
      exact Memory.wf_insert h i (Block.write_wf (State.block_wf h ‹_›) (by omega) v)

theorem State.alloc_wf {s : State} {n : Word} {r : State × Nat} (h : Memory.wf s.heap)
    (e : s.alloc n = .ok r) : Memory.wf r.1.heap := by
  unfold State.alloc at e
  split at e
  · split at e <;> cases e <;> exact Memory.wf_insert h _ (Block.zero_wf n)
  · cases e

theorem State.reclaim_wf {s t : State} {i : Nat} (h : Memory.wf s.heap)
    (e : s.reclaim i = .ok t) : Memory.wf t.heap := by
  unfold State.reclaim at e
  split at e
  · cases e
  · cases e; exact Memory.wf_erase h i

theorem State.replaceZero_wf {s t : State} {i : Nat} (h : Memory.wf s.heap)
    (e : s.replaceZero i = .ok t) : Memory.wf t.heap := by
  unfold State.replaceZero at e
  split at e
  · cases e
  · cases e; exact Memory.wf_insert h 0 (State.block_wf h ‹_›)

end Sys2Proof.Machine
end

