-- ==== Sys2Proof/Laws/Ops.lean ====
section
/-! SUPPORT. For each shared operation one lemma that says everything it can do. Later proofs cite these
and do not unfold the operations. -/

namespace Sys2Proof.Machine

/-! ## Taking a condition -/

theorem State.orRaise_eq_next {s t : State} {r : Except FatalCondition State} :
    s.orRaise r = .next t ↔ r = .ok t ∨ ∃ k, r = .error k ∧ t = s.raise k := by
  cases r <;> simp [State.orRaise, eq_comm]

/-! ## Reading -/

theorem State.live_iff {s : State} {i : Nat} : s.live i = true ↔ ∃ b, s.block i = some b := by
  simp [State.live, Option.isSome_iff_exists]

theorem State.live_eq_false {s : State} {i : Nat} : s.live i = false ↔ s.block i = none := by
  simp [State.live]

theorem State.size_of_block {s : State} {i : Nat} {b : Block} (h : s.block i = some b) :
    s.size i = b.size.toNat := by simp [State.size, h]

/-- `MemRead` succeeds exactly on a live index and an offset below the size (R33). -/
theorem State.memRead_ok_iff {s : State} {i o : Nat} {v : Word} :
    s.memRead i o = .ok v ↔ ∃ b, s.block i = some b ∧ o < b.size.toNat ∧ b.read o = v := by
  unfold State.memRead
  cases s.block i with
  | none => simp
  | some b =>
    by_cases h : b.size.toNat ≤ o
    · simp [h]
    · simp [h]; omega

theorem State.memRead_error_iff {s : State} {i o : Nat} {k : FatalCondition} :
    s.memRead i o = .error k ↔
      (s.block i = none ∧ k = .outOfBoundsArray) ∨
      (∃ b, s.block i = some b ∧ b.size.toNat ≤ o ∧ k = .outOfBoundsOffset) := by
  unfold State.memRead
  cases s.block i with
  | none => simp [eq_comm]
  | some b =>
    by_cases h : b.size.toNat ≤ o
    · simp [h, eq_comm]
    · simp [h]

/-- What is read at an address depends on the block at the index alone. -/
theorem State.peek_eq {s : State} {i o : Nat} :
    s.peek i o = match s.block i with
      | none => none
      | some b => if b.size.toNat ≤ o then none else some (b.read o) := by
  unfold State.peek State.memRead
  cases s.block i with
  | none => rfl
  | some b => dsimp only; split <;> rfl

theorem SameBlock.of_block_eq {i : Nat} {s t : State} (h : t.block i = s.block i) :
    SameBlock i s t := by
  refine ⟨by simp [State.live, h], by simp [State.size, h], fun o => ?_⟩
  rw [State.peek_eq, State.peek_eq, h]

theorem SameHeap.of_heap_eq {s t : State} (h : t.heap = s.heap) : SameHeap s t :=
  fun i => SameBlock.of_block_eq (by simp [State.block, h])

/-! ## Writing -/

/-- `MemWrite` (R34): when it succeeds, and the state it leaves. -/
theorem State.memWrite_ok_iff {s t : State} {i o : Nat} {v : Word} :
    s.memWrite i o v = .ok t ↔ ∃ b, s.block i = some b ∧ o < b.size.toNat ∧
      t = { s with heap := Assoc.insert i (b.write o v) s.heap } := by
  unfold State.memWrite
  cases s.block i with
  | none => simp
  | some b =>
    by_cases h : b.size.toNat ≤ o
    · simp [h]
    · simp [h, eq_comm]; omega

theorem State.memWrite_error_iff {s : State} {i o : Nat} {v : Word} {k : FatalCondition} :
    s.memWrite i o v = .error k ↔ s.memRead i o = .error k := by
  unfold State.memWrite State.memRead
  cases s.block i with
  | none => simp
  | some b => by_cases h : b.size.toNat ≤ o <;> simp [h]

/-- `Alloc` (R35): the index, and the state with the new block of zeros. -/
theorem State.alloc_ok_iff {s : State} {n : Word} {r : State × Nat} :
    s.alloc n = .ok r ↔ s.admits n = true ∧
      ((∃ i, s.freeList.getLast? = some i ∧
        r = ({ s with freeList := s.freeList.dropLast
                      heap := Assoc.insert i (Block.zero n) s.heap }, i)) ∨
       (s.freeList = [] ∧
        r = ({ s with nextIndex := s.nextIndex + 1
                      heap := Assoc.insert s.nextIndex (Block.zero n) s.heap }, s.nextIndex))) := by
  unfold State.alloc
  by_cases h : s.admits n = true
  · rw [if_pos h]
    cases hl : s.freeList.getLast? with
    | none =>
      have : s.freeList = [] := by simpa using hl
      simp [h, this, eq_comm]
    | some i =>
      have : s.freeList ≠ [] := by rintro e; simp [e] at hl
      simp [h, this, eq_comm]
  · simp [h]

theorem State.alloc_error_iff {s : State} {n : Word} {k : FatalCondition} :
    s.alloc n = .error k ↔ s.admits n = false ∧ k = .allocationExhausted := by
  unfold State.alloc
  by_cases h : s.admits n = true
  · rw [if_pos h]
    cases s.freeList.getLast? <;> simp [h]
  · simp [h, eq_comm]

/-- `Reclaim` (R36). -/
theorem State.reclaim_ok_iff {s t : State} {i : Nat} :
    s.reclaim i = .ok t ↔ i ≠ 0 ∧ s.live i = true ∧
      t = { s with heap := Assoc.erase i s.heap, freeList := s.freeList ++ [i] } := by
  unfold State.reclaim
  by_cases h : i = 0
  · simp [h]
  · cases hl : s.live i <;> simp [h, eq_comm]

theorem State.reclaim_error_iff {s : State} {i : Nat} {k : FatalCondition} :
    s.reclaim i = .error k ↔ (i = 0 ∨ s.live i = false) ∧ k = .invalidReclaim := by
  unfold State.reclaim
  by_cases h : i = 0
  · simp only [h, decide_true, Bool.true_or, if_true, true_or, true_and, Except.error.injEq]
    exact eq_comm
  · cases hl : s.live i <;> simp [h, eq_comm]

/-- `ReplaceZero` (R37): Block 0 becomes a copy. -/
theorem State.replaceZero_ok_iff {s t : State} {i : Nat} :
    s.replaceZero i = .ok t ↔ ∃ b, s.block i = some b ∧
      t = { s with heap := Assoc.insert 0 b s.heap } := by
  unfold State.replaceZero
  cases s.block i <;> simp [eq_comm]

theorem State.replaceZero_error_iff {s : State} {i : Nat} {k : FatalCondition} :
    s.replaceZero i = .error k ↔ s.block i = none ∧ k = .outOfBoundsArray := by
  unfold State.replaceZero
  cases s.block i <;> simp [eq_comm]

/-! ## What a write to the Heap leaves -/

theorem State.block_insert (s : State) (i j : Nat) (b : Block) :
    State.block { s with heap := Assoc.insert i b s.heap } j = if j = i then some b else s.block j :=
  Assoc.lookup_insert _ _ _ _

theorem State.live_of_heap_eq {s t : State} (h : t.heap = s.heap) (i : Nat) : t.live i = s.live i := by
  unfold State.live State.block; rw [h]

theorem State.live_of_heap_insert {s t : State} {i : Nat} {b : Block}
    (h : t.heap = Assoc.insert i b s.heap) (j : Nat) : t.live j = (decide (j = i) || s.live j) := by
  unfold State.live State.block
  rw [h, Assoc.lookup_insert]
  split <;> simp [*]

theorem State.live_of_heap_erase {s t : State} {i : Nat}
    (h : t.heap = Assoc.erase i s.heap) (j : Nat) : t.live j = (!decide (j = i) && s.live j) := by
  unfold State.live State.block
  rw [h, Assoc.lookup_erase]
  split <;> simp [*]

/-- `Alloc` touches the Heap, the Free List and `next_index` only. -/
theorem State.alloc_frame {s u : State} {n : Word} {i : Nat} (h : s.alloc n = .ok (u, i)) :
    u.x = s.x ∧ u.pc = s.pc ∧ u.status = s.status ∧ u.cause = s.cause ∧ u.input = s.input ∧
    u.inPos = s.inPos ∧ u.eof = s.eof ∧ u.out = s.out ∧ u.allocAdmit = s.allocAdmit := by
  obtain ⟨_, ⟨j, _, e⟩ | ⟨_, e⟩⟩ := State.alloc_ok_iff.1 h <;> cases e <;> simp

/-- An admitted `Alloc` succeeds, at the index `nextAllocIndex`. -/
theorem State.alloc_of_admits {s : State} {n : Word} (h : s.admits n = true) :
    ∃ u, s.alloc n = .ok (u, s.nextAllocIndex) ∧
      u.heap = Assoc.insert s.nextAllocIndex (Block.zero n) s.heap := by
  rcases hl : s.freeList.getLast? with _ | i
  · have e : s.nextAllocIndex = s.nextIndex := by simp [State.nextAllocIndex, hl]
    exact e ▸ ⟨_, State.alloc_ok_iff.2 ⟨h, .inr ⟨by simpa using hl, rfl⟩⟩, rfl⟩
  · have e : s.nextAllocIndex = i := by simp [State.nextAllocIndex, hl]
    exact e ▸ ⟨_, State.alloc_ok_iff.2 ⟨h, .inl ⟨i, hl, rfl⟩⟩, rfl⟩

/-- The Heap after reset and load has one block. -/
theorem State.launch_block (image : List Word) (input : List Token) (admission : AllocAdmit) (i : Nat) :
    (State.launch image input admission).block i = if i = 0 then some (Block.ofWords image) else none := by
  simp [State.launch, State.block, Assoc.lookup, eq_comm]

/-! ## Fetching -/

/-- The fetch reads the storage that `MemRead(0, pc)` reads (R38). -/
theorem State.fetch_ok_iff {s : State} {w : Word} :
    s.fetch = .ok w ↔ s.memRead 0 s.pc.toNat = .ok w := by
  unfold State.fetch State.memRead
  cases s.block 0 with
  | none => simp
  | some b => by_cases h : b.size.toNat ≤ s.pc.toNat <;> simp [h]

theorem State.fetch_error_iff {s : State} {k : FatalCondition} :
    s.fetch = .error k ↔ s.size 0 ≤ s.pc.toNat ∧ k = .programCounterOutOfRange := by
  unfold State.fetch State.size
  cases s.block 0 with
  | none => simp [eq_comm]
  | some b => by_cases h : b.size.toNat ≤ s.pc.toNat <;> simp [h, eq_comm]

/-! ## The input stream -/

/-- `In()` (R99): its three answers and the hold. -/
theorem State.takeInput_cases (s : State) :
    (s.eof = true ∧ s.takeInput = some (s, endOfStreamWord)) ∨
    (s.eof = false ∧ s.input[s.inPos]? = none ∧ s.takeInput = none) ∨
    (s.eof = false ∧ s.input[s.inPos]? = some .eos ∧
      s.takeInput = some ({ s with inPos := s.inPos + 1, eof := true }, endOfStreamWord)) ∨
    (∃ b, s.eof = false ∧ s.input[s.inPos]? = some (.byte b) ∧
      s.takeInput = some ({ s with inPos := s.inPos + 1 }, byteWord b)) := by
  unfold State.takeInput
  cases he : s.eof with
  | true => simp
  | false =>
    rcases hi : s.input[s.inPos]? with _ | t
    · simp
    · cases t <;> simp

/-- `In()` touches `in_pos` and the latch only. -/
theorem State.takeInput_frame {s u : State} {v : Word} (h : s.takeInput = some (u, v)) :
    u.x = s.x ∧ u.pc = s.pc ∧ u.heap = s.heap ∧ u.freeList = s.freeList ∧
    u.nextIndex = s.nextIndex ∧ u.status = s.status ∧ u.cause = s.cause ∧ u.input = s.input ∧
    u.out = s.out ∧ u.allocAdmit = s.allocAdmit := by
  rcases State.takeInput_cases s with ⟨_, e⟩ | ⟨_, _, e⟩ | ⟨_, _, e⟩ | ⟨b, _, _, e⟩ <;>
    rw [e] at h <;> cases h <;> simp

theorem State.inputReady_iff {s : State} :
    s.inputReady = true ↔ s.eof = true ∨ s.inPos < s.input.length := by
  simp [State.inputReady]

end Sys2Proof.Machine
end

