-- ==== Sys2Proof/Laws/Exec.lean ====
section
/-! SUPPORT. What one instruction and one step can do: for each instruction that can raise, its two
outcomes; for the step, its five. -/

namespace Sys2Proof.Machine

/-! ## Instructions that cannot raise -/

theorem exec_cmov (a b c : Reg) (s : State) :
    exec (.cmov a b c) s = .next (if isNonZero (s.reg c) then s.setReg a (s.reg b) else s) := rfl

theorem exec_add (a b c : Reg) (s : State) :
    exec (.add a b c) s = .next (s.setReg a (s.reg b + s.reg c)) := rfl

theorem exec_mul (a b c : Reg) (s : State) :
    exec (.mul a b c) s = .next (s.setReg a (s.reg b * s.reg c)) := rfl

theorem exec_nand (a b c : Reg) (s : State) :
    exec (.nand a b c) s = .next (s.setReg a (~~~(s.reg b &&& s.reg c))) := rfl

theorem exec_orth (r : Reg) (imm : BitVec 25) (s : State) :
    exec (.orth r imm) s = .next (s.setReg r (immWord imm)) := rfl

theorem exec_halt (s : State) :
    exec .halt s = .next { s with status := .halted, cause := none } := rfl

/-! ## Instructions that can raise -/

theorem exec_div_cases {a b c : Reg} {s t : State} (h : exec (.div a b c) s = .next t) :
    (s.reg c ≠ 0#32 ∧ t = s.setReg a (s.reg b / s.reg c)) ∨
    (s.reg c = 0#32 ∧ t = s.raise .divisionByZero) := by
  replace h := State.orRaise_eq_next.1 h
  by_cases hc : s.reg c = 0#32
  · rcases h with h | ⟨k, h, rfl⟩ <;> simp [isZeroDivisor, hc] at h ⊢
    rw [h]
  · rcases h with h | ⟨k, h, rfl⟩ <;> simp [isZeroDivisor, hc] at h ⊢
    exact h.symm

theorem exec_aidx_cases {a b c : Reg} {s t : State} (h : exec (.aidx a b c) s = .next t) :
    (∃ v, s.memRead (s.reg b).toNat (s.reg c).toNat = .ok v ∧ t = s.setReg a v) ∨
    (∃ k, s.memRead (s.reg b).toNat (s.reg c).toNat = .error k ∧ t = s.raise k) := by
  replace h := State.orRaise_eq_next.1 h
  rcases hr : s.memRead (s.reg b).toNat (s.reg c).toNat with k | v
  · rcases h with h | ⟨k, h, rfl⟩ <;> simp [hr, Except.map] at h ⊢
    rw [h]
  · rcases h with h | ⟨k, h, rfl⟩ <;> simp [hr, Except.map] at h ⊢
    exact h.symm

theorem exec_amend_cases {a b c : Reg} {s t : State} (h : exec (.amend a b c) s = .next t) :
    s.memWrite (s.reg a).toNat (s.reg b).toNat (s.reg c) = .ok t ∨
    (∃ k, s.memWrite (s.reg a).toNat (s.reg b).toNat (s.reg c) = .error k ∧ t = s.raise k) :=
  State.orRaise_eq_next.1 h

theorem exec_alloc_cases {b c : Reg} {s t : State} (h : exec (.alloc b c) s = .next t) :
    (∃ u i, s.alloc (s.reg c) = .ok (u, i) ∧ t = u.setReg b (wordOfIndex i)) ∨
    (s.admits (s.reg c) = false ∧ t = s.raise .allocationExhausted) := by
  replace h := State.orRaise_eq_next.1 h
  rcases hr : s.alloc (s.reg c) with k | r
  · obtain ⟨ha, rfl⟩ := State.alloc_error_iff.1 hr
    rcases h with h | ⟨k, h, rfl⟩ <;> simp [hr, Except.map] at h
    exact .inr ⟨ha, by rw [h]⟩
  · rcases h with h | ⟨k, h, rfl⟩ <;> simp [hr, Except.map] at h
    exact .inl ⟨r.1, r.2, rfl, h.symm⟩

theorem exec_aband_cases {c : Reg} {s t : State} (h : exec (.aband c) s = .next t) :
    s.reclaim (s.reg c).toNat = .ok t ∨
    (((s.reg c).toNat = 0 ∨ s.live (s.reg c).toNat = false) ∧ t = s.raise .invalidReclaim) := by
  rcases State.orRaise_eq_next.1 h with h | ⟨k, h', rfl⟩
  · exact .inl h
  · obtain ⟨hc, rfl⟩ := State.reclaim_error_iff.1 h'
    exact .inr ⟨hc, rfl⟩

theorem exec_out_cases {c : Reg} {s t : State} (h : exec (.out c) s = .next t) :
    ((s.reg c).toNat ≤ 255 ∧ t = s.emit (lowByte (s.reg c))) ∨
    (255 < (s.reg c).toNat ∧ t = s.raise .outputRangeError) := by
  replace h := State.orRaise_eq_next.1 h
  by_cases hc : 255 < (s.reg c).toNat
  · rcases h with h | ⟨k, h, rfl⟩ <;> simp [exceedsByte, hc] at h ⊢
    exact .inr (by rw [h])
  · rcases h with h | ⟨k, h, rfl⟩ <;> simp [exceedsByte, hc] at h ⊢
    exact ⟨by omega, h.symm⟩

theorem exec_loadp_cases {b c : Reg} {s t : State} (h : exec (.loadp b c) s = .next t) :
    ((s.reg b).toNat = 0 ∧ t = { s with pc := s.reg c }) ∨
    (∃ u, (s.reg b).toNat ≠ 0 ∧ s.replaceZero (s.reg b).toNat = .ok u ∧ t = { u with pc := s.reg c }) ∨
    ((s.reg b).toNat ≠ 0 ∧ s.block (s.reg b).toNat = none ∧ t = s.raise .outOfBoundsArray) := by
  replace h := State.orRaise_eq_next.1 h
  by_cases hb : (s.reg b).toNat = 0
  · rcases h with h | ⟨k, h, rfl⟩ <;> simp only [if_pos hb, Except.map] at h
    · cases h; exact .inl ⟨hb, rfl⟩
    · cases h
  · rcases hr : s.replaceZero (s.reg b).toNat with k | u
    · obtain ⟨hn, rfl⟩ := State.replaceZero_error_iff.1 hr
      rcases h with h | ⟨k, h, rfl⟩ <;>
        simp only [if_neg hb, hr, Except.map] at h <;> cases h
      exact .inr (.inr ⟨hb, hn, rfl⟩)
    · rcases h with h | ⟨k, h, rfl⟩ <;>
        simp only [if_neg hb, hr, Except.map] at h <;> cases h
      exact .inr (.inl ⟨u, hb, rfl, rfl⟩)

theorem exec_inp_cases {c : Reg} {s t : State} (h : exec (.inp c) s = .next t) :
    (∃ u v, s.takeInput = some (u, v) ∧ t = u.setReg c v) ∨ (s.takeInput = none ∧ t = s) := by
  simp only [exec, execInp] at h
  rcases hr : s.takeInput with _ | ⟨u, v⟩ <;> simp only [hr] at h <;> cases h
  · exact .inr ⟨rfl, rfl⟩
  · exact .inl ⟨u, v, rfl, rfl⟩

/-! ## Every instruction, every step -/

/-- What an instruction can do to the Heap and the allocator: nothing, or one call of one primitive. -/
theorem exec_heap_cases {i : Instr} {s t : State} (h : exec i s = .next t) :
    (t.heap = s.heap ∧ t.freeList = s.freeList ∧ t.nextIndex = s.nextIndex) ∨
    (∃ j o v, s.memWrite j o v = .ok t) ∨
    (∃ n u j, s.alloc n = .ok (u, j) ∧ t.heap = u.heap ∧ t.freeList = u.freeList ∧
      t.nextIndex = u.nextIndex) ∨
    (∃ v : Word, s.reclaim v.toNat = .ok t) ∨
    (∃ j u, j ≠ 0 ∧ s.replaceZero j = .ok u ∧ t.heap = u.heap ∧ t.freeList = u.freeList ∧
      t.nextIndex = u.nextIndex) := by
  cases i with
  | cmov a b c => rw [exec_cmov] at h; cases h; left; split <;> simp
  | add a b c => rw [exec_add] at h; cases h; simp
  | mul a b c => rw [exec_mul] at h; cases h; simp
  | nand a b c => rw [exec_nand] at h; cases h; simp
  | orth r imm => rw [exec_orth] at h; cases h; simp
  | halt => rw [exec_halt] at h; cases h; simp
  | div a b c => rcases exec_div_cases h with ⟨_, rfl⟩ | ⟨_, rfl⟩ <;> simp
  | aidx a b c => rcases exec_aidx_cases h with ⟨_, _, rfl⟩ | ⟨_, _, rfl⟩ <;> simp
  | amend a b c =>
    rcases exec_amend_cases h with e | ⟨_, _, rfl⟩
    · exact .inr (.inl ⟨_, _, _, e⟩)
    · simp
  | alloc b c =>
    rcases exec_alloc_cases h with ⟨u, j, e, rfl⟩ | ⟨_, rfl⟩
    · exact .inr (.inr (.inl ⟨_, u, j, e, rfl, rfl, rfl⟩))
    · simp
  | aband c =>
    rcases exec_aband_cases h with e | ⟨_, rfl⟩
    · exact .inr (.inr (.inr (.inl ⟨_, e⟩)))
    · simp
  | out c => rcases exec_out_cases h with ⟨_, rfl⟩ | ⟨_, rfl⟩ <;> simp
  | inp c =>
    rcases exec_inp_cases h with ⟨u, v, e, rfl⟩ | ⟨_, rfl⟩
    · simp [State.takeInput_frame e]
    · simp
  | loadp b c =>
    rcases exec_loadp_cases h with ⟨_, rfl⟩ | ⟨u, hb, e, rfl⟩ | ⟨_, _, rfl⟩
    · simp
    · exact .inr (.inr (.inr (.inr ⟨_, u, hb, e, rfl, rfl, rfl⟩)))
    · simp

/-- What an instruction can do to the streams: nothing, one byte emitted, or one answer of `In()`. -/
theorem exec_stream_cases {i : Instr} {s t : State} (h : exec i s = .next t) :
    (t.out = s.out ∧ t.inPos = s.inPos ∧ t.eof = s.eof ∧ t.input = s.input) ∨
    (∃ b, t = s.emit b) ∨
    (∃ c u v, s.takeInput = some (u, v) ∧ t = u.setReg c v) := by
  cases i with
  | cmov a b c => rw [exec_cmov] at h; cases h; left; split <;> simp
  | add a b c => rw [exec_add] at h; cases h; simp
  | mul a b c => rw [exec_mul] at h; cases h; simp
  | nand a b c => rw [exec_nand] at h; cases h; simp
  | orth r imm => rw [exec_orth] at h; cases h; simp
  | halt => rw [exec_halt] at h; cases h; simp
  | div a b c => rcases exec_div_cases h with ⟨_, rfl⟩ | ⟨_, rfl⟩ <;> simp
  | aidx a b c => rcases exec_aidx_cases h with ⟨_, _, rfl⟩ | ⟨_, _, rfl⟩ <;> simp
  | amend a b c =>
    rcases exec_amend_cases h with e | ⟨_, _, rfl⟩
    · obtain ⟨_, _, _, rfl⟩ := State.memWrite_ok_iff.1 e; simp
    · simp
  | alloc b c =>
    rcases exec_alloc_cases h with ⟨u, j, e, rfl⟩ | ⟨_, rfl⟩
    · simp [State.alloc_frame e]
    · simp
  | aband c =>
    rcases exec_aband_cases h with e | ⟨_, rfl⟩
    · obtain ⟨_, _, rfl⟩ := State.reclaim_ok_iff.1 e; simp
    · simp
  | out c =>
    rcases exec_out_cases h with ⟨_, rfl⟩ | ⟨_, rfl⟩
    · exact .inr (.inl ⟨_, rfl⟩)
    · simp
  | inp c =>
    rcases exec_inp_cases h with ⟨u, v, e, rfl⟩ | ⟨_, rfl⟩
    · exact .inr (.inr ⟨c, u, v, e, rfl⟩)
    · simp
  | loadp b c =>
    rcases exec_loadp_cases h with ⟨_, rfl⟩ | ⟨u, _, e, rfl⟩ | ⟨_, _, rfl⟩
    · simp
    · obtain ⟨_, _, rfl⟩ := State.replaceZero_ok_iff.1 e; simp
    · simp

/-- Every meaning answers a next state: no instruction faults or is refused. -/
theorem exec_next (i : Instr) (s : State) : ∃ t, exec i s = .next t := by
  have orRaise : ∀ r, ∃ t, s.orRaise r = .next t := fun r => by cases r <;> exact ⟨_, rfl⟩
  cases i with
  | cmov | add | mul | nand | halt | orth => exact ⟨_, rfl⟩
  | aidx | amend | div | alloc | aband | out | loadp => exact orRaise _
  | inp c => simp only [exec, execInp]; cases s.takeInput <;> exact ⟨_, rfl⟩

/-- The five things a step can be (R66, R71, R74). -/
theorem step_cases {s t : State} (h : step s = .next t) :
    (s.status = .halted ∧ t = s) ∨
    (s.status = .running ∧ s.size 0 ≤ s.pc.toNat ∧ t = s.raise .programCounterOutOfRange) ∨
    (∃ w op, s.status = .running ∧ s.fetch = .ok w ∧ decode w = .error (.unknownOpcode op) ∧
      t = s.advance.raise .unknownOpcode) ∨
    (∃ w i, s.status = .running ∧ s.fetch = .ok w ∧ decode w = .ok i ∧ s.enabled i = true ∧
      exec i s.advance = .next t) ∨
    (∃ w i, s.status = .running ∧ s.fetch = .ok w ∧ decode w = .ok i ∧ s.enabled i = false ∧
      t = s) := by
  unfold step runStep at h
  cases hs : s.status with
  | halted => rw [hs] at h; left; exact ⟨rfl, by simpa [eq_comm] using h⟩
  | running =>
    rw [hs] at h
    right
    cases hf : s.fetch with
    | error k =>
      obtain ⟨hsz, rfl⟩ := State.fetch_error_iff.1 hf
      rw [hf] at h
      left; exact ⟨rfl, hsz, by simpa [eq_comm] using h⟩
    | ok w =>
      rw [hf] at h
      right
      cases hd : decode w with
      | error e =>
        obtain ⟨op⟩ := e
        simp only [hd] at h
        left; exact ⟨w, op, rfl, rfl, hd, by simpa [eq_comm] using h⟩
      | ok i =>
        simp only [hd] at h
        right
        cases he : s.enabled i with
        | true => left; exact ⟨w, i, rfl, rfl, hd, he, by simpa [he] using h⟩
        | false => right; exact ⟨w, i, rfl, rfl, hd, he, by simpa [he, eq_comm] using h⟩

end Sys2Proof.Machine
end

