-- ==== Sys2Proof/Laws/Decode.lean ====
section
/-! SUPPORT. The fields of a Word and of an encoded term as arithmetic on naturals. -/

namespace Sys2Proof

/-- A field as quotient and remainder. -/
theorem bitField_eq (w : Word) (hi lo : Nat) :
    bitField w hi lo = w.toNat / 2 ^ lo % 2 ^ (hi - lo + 1) := by
  simp [bitField, Nat.shiftRight_eq_div_pow]

/-- R60's formula as a sum: the fields do not overlap. -/
theorem encodeFields_std_toNat (op : Fin 16) (a b c : Reg) :
    (encodeFields (.std op a b c)).toNat = op.val * 2 ^ 28 + a.val * 2 ^ 6 + b.val * 2 ^ 3 + c.val := by
  have h1 : b.val <<< 3 ||| c.val = b.val <<< 3 + c.val :=
    (Nat.shiftLeft_add_eq_or_of_lt (by omega) _).symm
  have h2 : a.val <<< 6 ||| (b.val <<< 3 + c.val) = a.val <<< 6 + (b.val <<< 3 + c.val) :=
    (Nat.shiftLeft_add_eq_or_of_lt (by rw [Nat.shiftLeft_eq]; omega) _).symm
  have h3 : op.val <<< 28 ||| (a.val <<< 6 + (b.val <<< 3 + c.val))
      = op.val <<< 28 + (a.val <<< 6 + (b.val <<< 3 + c.val)) :=
    (Nat.shiftLeft_add_eq_or_of_lt (by simp only [Nat.shiftLeft_eq]; omega) _).symm
  simp only [encodeFields, BitVec.toNat_ofNat, Nat.or_assoc, h1, h2, h3]
  simp only [Nat.shiftLeft_eq]
  omega

theorem encodeFields_orth_toNat (r : Reg) (imm : BitVec 25) :
    (encodeFields (.orth r imm)).toNat = 13 * 2 ^ 28 + r.val * 2 ^ 25 + imm.toNat := by
  have h1 : r.val <<< 25 ||| imm.toNat = r.val <<< 25 + imm.toNat :=
    (Nat.shiftLeft_add_eq_or_of_lt (by omega) _).symm
  have h2 : 13 <<< 28 ||| (r.val <<< 25 + imm.toNat) = 13 <<< 28 + (r.val <<< 25 + imm.toNat) :=
    (Nat.shiftLeft_add_eq_or_of_lt (by rw [Nat.shiftLeft_eq]; omega) _).symm
  simp only [encodeFields, BitVec.toNat_ofNat, Nat.or_assoc, h1, h2]
  simp only [Nat.shiftLeft_eq]
  omega

/-- The fields of an encoded Standard term (R51). -/
theorem codec_encodeFields_std {op : Fin 16} (h : op ≠ 13) (a b c : Reg) :
    codec (encodeFields (.std op a b c)) = .std op a b c := by
  have e := encodeFields_std_toNat op a b c
  have ho : opField (encodeFields (.std op a b c)) = op := by
    simp only [opField, bitField_eq, e, Fin.ext_iff, Fin.val_ofNat]; omega
  have ha : aField (encodeFields (.std op a b c)) = a := by
    simp only [aField, bitField_eq, e, Fin.ext_iff, Fin.val_ofNat]; omega
  have hb : bField (encodeFields (.std op a b c)) = b := by
    simp only [bField, bitField_eq, e, Fin.ext_iff, Fin.val_ofNat]; omega
  have hc : cField (encodeFields (.std op a b c)) = c := by
    simp only [cField, bitField_eq, e, Fin.ext_iff, Fin.val_ofNat]; omega
  rw [codec, ho, ha, hb, hc, if_neg h]

/-- The fields of an encoded Orthography term (R52). -/
theorem codec_encodeFields_orth (r : Reg) (imm : BitVec 25) :
    codec (encodeFields (.orth r imm)) = .orth r imm := by
  have e := encodeFields_orth_toNat r imm
  have ho : opField (encodeFields (.orth r imm)) = 13 := by
    simp only [opField, bitField_eq, e, Fin.ext_iff, Fin.val_ofNat]; omega
  have hr : rField (encodeFields (.orth r imm)) = r := by
    simp only [rField, bitField_eq, e, Fin.ext_iff, Fin.val_ofNat]; omega
  have hi : immField (encodeFields (.orth r imm)) = imm := by
    apply BitVec.eq_of_toNat_eq
    simp only [immField, bitField_eq, e, BitVec.toNat_ofNat]; omega
  rw [codec, ho, hr, hi, if_pos rfl]

end Sys2Proof
end

