-- ==== Sys2Proof/Laws/PerInstr.lean ====
section
/-! SUPPORT. Per-instruction families: a statement about the instruction as syntax, and one lemma for
each constructor of `Instr`. -/

namespace Sys2Proof.Laws.CanonicalEncoding

/-- The encoder answers canonical Words only: ignored bits and unused register fields are zero (R60). -/
def Statement (i : Instr) : Prop := canonical (encode i) = true

/-- The bits above the highest used field of an encoded Standard term are those of the operation code. -/
theorem std_high (op : Fin 16) (a b c : Reg) :
    (opField (encodeFields (.std op a b c))).val = op.val ∧
    bitField (encodeFields (.std op a b c)) 27 9 = 0 ∧
    bitField (encodeFields (.std op a b c)) 27 6 = a.val ∧
    bitField (encodeFields (.std op a b c)) 27 3 = a.val * 2 ^ 3 + b.val ∧
    bitField (encodeFields (.std op a b c)) 27 0 = a.val * 2 ^ 6 + b.val * 2 ^ 3 + c.val := by
  have e := encodeFields_std_toNat op a b c
  refine ⟨?_, ?_, ?_, ?_, ?_⟩ <;> simp only [opField, bitField_eq, e, Fin.val_ofNat] <;> omega

theorem cmov (a b c : Reg) : Statement (.cmov a b c) := by
  simp [Statement, encode, fieldsOfInstr, canonical, std_high]

theorem aidx (a b c : Reg) : Statement (.aidx a b c) := by
  simp [Statement, encode, fieldsOfInstr, canonical, std_high]

theorem amend (a b c : Reg) : Statement (.amend a b c) := by
  simp [Statement, encode, fieldsOfInstr, canonical, std_high]

theorem add (a b c : Reg) : Statement (.add a b c) := by
  simp [Statement, encode, fieldsOfInstr, canonical, std_high]

theorem mul (a b c : Reg) : Statement (.mul a b c) := by
  simp [Statement, encode, fieldsOfInstr, canonical, std_high]

theorem div (a b c : Reg) : Statement (.div a b c) := by
  simp [Statement, encode, fieldsOfInstr, canonical, std_high]

theorem nand (a b c : Reg) : Statement (.nand a b c) := by
  simp [Statement, encode, fieldsOfInstr, canonical, std_high]

theorem halt : Statement .halt := by
  simp [Statement, encode, fieldsOfInstr, canonical, std_high]

theorem alloc (b c : Reg) : Statement (.alloc b c) := by
  simp [Statement, encode, fieldsOfInstr, canonical, std_high]

theorem aband (c : Reg) : Statement (.aband c) := by
  simp [Statement, encode, fieldsOfInstr, canonical, std_high]

theorem out (c : Reg) : Statement (.out c) := by
  simp [Statement, encode, fieldsOfInstr, canonical, std_high]

theorem inp (c : Reg) : Statement (.inp c) := by
  simp [Statement, encode, fieldsOfInstr, canonical, std_high]

theorem loadp (b c : Reg) : Statement (.loadp b c) := by
  simp [Statement, encode, fieldsOfInstr, canonical, std_high]

theorem orth (r : Reg) (imm : BitVec 25) : Statement (.orth r imm) := by
  have h : (opField (encodeFields (.orth r imm))).val = 13 := by
    simp only [opField, bitField_eq, encodeFields_orth_toNat, Fin.val_ofNat]; omega
  simp [Statement, encode, fieldsOfInstr, canonical, h]

end Sys2Proof.Laws.CanonicalEncoding
end

