-- ==== Sys2Proof/Machine/Asm.lean ====
section
/-! DEFINITION. The textual form the spec defines for its own examples (30_encoding.md R61, D7): operands in
the order A, B, C, without the fields an instruction ignores. It has no behaviour. -/

namespace Sys2Proof.Machine

/-- `r0` to `r7`. -/
def regText (r : Reg) : String := "r" ++ toString r.val

/-- One instruction as R61's table writes it, the immediate in decimal. -/
def asmText : Instr → String
  | .cmov a b c => "cmov " ++ regText a ++ ", " ++ regText b ++ ", " ++ regText c
  | .aidx a b c => "aidx " ++ regText a ++ ", " ++ regText b ++ ", " ++ regText c
  | .amend a b c => "amend " ++ regText a ++ ", " ++ regText b ++ ", " ++ regText c
  | .add a b c => "add " ++ regText a ++ ", " ++ regText b ++ ", " ++ regText c
  | .mul a b c => "mul " ++ regText a ++ ", " ++ regText b ++ ", " ++ regText c
  | .div a b c => "div " ++ regText a ++ ", " ++ regText b ++ ", " ++ regText c
  | .nand a b c => "nand " ++ regText a ++ ", " ++ regText b ++ ", " ++ regText c
  | .halt => "halt"
  | .alloc b c => "alloc " ++ regText b ++ ", " ++ regText c
  | .aband c => "aband " ++ regText c
  | .out c => "out " ++ regText c
  | .inp c => "in " ++ regText c
  | .loadp b c => "loadp " ++ regText b ++ ", " ++ regText c
  | .orth r imm => "orth " ++ regText r ++ ", " ++ toString imm.toNat

end Sys2Proof.Machine
end

