-- ==== Sys2Proof/Tests/Slice0.lean ====
section
/-! SUPPORT. The model's own tests. The expected results are those of spec/95_test_vectors.md, whose name
(V-A1, S2, ...) stands in each comment, or are worked out by hand from the rule named there. The
theorems `witness_<Name>` show, for `Obligations.<Name>`, a state and operands that meet its hypotheses,
one for each clause and at the ends of the ranges. -/

namespace Sys2Proof.Tests

open Sys2Proof Sys2Proof.Machine

/-! ## Helpers -/

/-- The state after reset with a program, some registers preset. -/
def preset (image : List Word) (regs : List (Reg × Word)) : State :=
  regs.foldl (fun s p => s.setReg p.1 p.2) (State.launch image [] .always)

/-- The same with block 1 live, of two Words 0 and 7, and index 2 free. -/
def heaped (image : List Word) (regs : List (Reg × Word)) : State :=
  { preset image regs with
    heap := [(0, Block.ofWords image), (1, { size := 2, cells := [(1, 7)] })]
    freeList := [2]
    nextIndex := 3 }

/-- What is read in the state an outcome goes on to. -/
def seen {α : Type} (o : Host.Outcome State Fault Refusal) (f : State → α) : Option α :=
  match o with
  | .next t => some (f t)
  | .fault _ => none
  | .refused _ => none

/-- Status, cause code and `pc`. -/
def engine (s : State) : BitVec 1 × BitVec 4 × Word := (statusBit s.status, causeCode s.cause, s.pc)

/-! ## Well-formedness refuses -/

/-- Operation codes 13, 14 and 15 are no Standard instruction (R50, R56). -/
theorem test_fields_wf_refuses :
    Fields.wf (.std 13 0 0 0) = false ∧ Fields.wf (.std 14 1 2 3) = false ∧
    Fields.wf (.std 15 7 7 7) = false ∧ Fields.wf (.std 12 0 0 0) = true := by decide

/-- An image of 2^32 Words is one too long (R132). -/
theorem test_image_wf_refuses : ¬ Image.wf (List.replicate (2 ^ 32) 0#32) := by
  simp only [Image.wf, List.length_replicate, Config.maxBlockWords]; decide

/-! ## Decoding: words written out from 30_encoding.md -/

/-- op 0000, unused 19 bits, A 110, B 100, C 001 (V-E12). -/
theorem test_decode_cmov :
    decode 0b0000_0000000000000000000_110_100_001#32 = .ok (.cmov 6 4 1) := by decide
/-- `0x10000153` (S2). -/
theorem test_decode_aidx :
    decode 0b0001_0000000000000000000_101_010_011#32 = .ok (.aidx 5 2 3) := by decide
/-- `0x2000009C` (S2). -/
theorem test_decode_amend :
    decode 0b0010_0000000000000000000_010_011_100#32 = .ok (.amend 2 3 4) := by decide
/-- V-E1, and V-E3 with the ignored bits set. -/
theorem test_decode_add :
    decode 0b0011_0000000000000000000_011_010_001#32 = .ok (.add 3 2 1) ∧
    decode 0b0011_1111111111111111111_011_010_001#32 = .ok (.add 3 2 1) := by decide
theorem test_decode_mul :
    decode 0b0100_0000000000000000000_001_010_011#32 = .ok (.mul 1 2 3) := by decide
theorem test_decode_div :
    decode 0b0101_0000000000000000000_001_010_011#32 = .ok (.div 1 2 3) := by decide
/-- `0x600000C0` (P1). -/
theorem test_decode_nand :
    decode 0b0110_0000000000000000000_011_000_000#32 = .ok (.nand 3 0 0) := by decide
/-- V-E4: every ignored bit and field set. -/
theorem test_decode_halt :
    decode 0b0111_0000000000000000000_000_000_000#32 = .ok .halt ∧
    decode 0b0111_1111111111111111111_111_111_111#32 = .ok .halt := by decide
/-- V-E11, with field A set, and its canonical word. -/
theorem test_decode_alloc :
    decode 0b1000_0000000000000000000_111_010_001#32 = .ok (.alloc 2 1) ∧
    decode 0b1000_0000000000000000000_000_010_001#32 = .ok (.alloc 2 1) := by decide
/-- `0x90000002` (V-H4). -/
theorem test_decode_aband :
    decode 0b1001_0000000000000000000_000_000_010#32 = .ok (.aband 2) := by decide
/-- `0xA0000005` (S2). -/
theorem test_decode_out :
    decode 0b1010_0000000000000000000_000_000_101#32 = .ok (.out 5) := by decide
/-- `0xB0000001` (V-I5). -/
theorem test_decode_in :
    decode 0b1011_0000000000000000000_000_000_001#32 = .ok (.inp 1) := by decide
/-- V-E10. -/
theorem test_decode_loadp :
    decode 0b1100_0000000000000000000_000_010_000#32 = .ok (.loadp 2 0) := by decide
/-- V-E6 and V-E5: op 1101, R, 25 bits of immediate. -/
theorem test_decode_orth :
    decode 0b1101_101_1001000110100010101100111#32 = .ok (.orth 5 0x1234567#25) ∧
    decode 0b1101_111_1111111111111111111111111#32 = .ok (.orth 7 0x1FFFFFF#25) := by decide
/-- V-E8, V-E9. -/
theorem test_decode_illegal :
    decode 0b1110_0000000000000000000_000_000_000#32 = .error (.unknownOpcode 14) ∧
    decode 0b1111_1111111111111111111_111_111_111#32 = .error (.unknownOpcode 15) := by decide

/-- The canonical words of 95_test_vectors.md sections 2.1 and 2.2. -/
theorem test_encode :
    encode (.add 3 2 1) = 0x300000D1#32 ∧ encode (.orth 0 72) = 0xD0000048#32 ∧
    encode (.loadp 2 0) = 0xC0000010#32 ∧ encode (.alloc 2 1) = 0x80000011#32 ∧
    encode .halt = 0x70000000#32 ∧ encode (.cmov 1 2 3) = 0x00000053#32 := by decide

theorem test_decodeTableWord :
    decodeTableWord 32 0xB0000001 = some (.inp 1) ∧ decodeTableWord 32 0xE0000000 = none ∧
    decodeTableWord 8 0xFFFFFFFF53 = some (.cmov 1 2 3) := by decide

/-- The host's placed word is what the first step after reset runs: `orth r0, 72`. -/
theorem test_withFetchWord :
    seen (step (State.reset.withFetchWord 32 0xD0000048)) (fun t => (t.reg 0, engine t))
      = some (72, 0, 0, 1) := by decide

/-- R61: unused fields are not written. -/
theorem test_asmText :
    asmText (.loadp 0 6) = "loadp r0, r6" ∧ asmText (.inp 1) = "in r1" ∧
    asmText (.orth 0 72) = "orth r0, 72" := by decide

/-! ## One step of each instruction -/

/-- V-A26, V-A27. -/
theorem test_cmov :
    seen (step (preset [0x00000053] [(1, 0xAAAA), (2, 0x64), (3, 7)])) (·.reg 1) = some 0x64 ∧
    seen (step (preset [0x00000053] [(1, 0xAAAA), (2, 0x64)])) (·.reg 1) = some 0xAAAA := by decide
/-- V-A28, V-A31. -/
theorem test_cmov_whole_word :
    seen (step (preset [0x00000053] [(2, 0x64), (3, 0x80000000)])) (·.reg 1) = some 0x64 ∧
    seen (step (preset [0x000000D3] [(2, 100), (3, 7)])) (·.reg 3) = some 100 := by decide
/-- V-A1, V-A6. -/
theorem test_add :
    seen (step (preset [0x30000053] [(2, 0xFFFFFFFF), (3, 1)])) (·.reg 1) = some 0 ∧
    seen (step (preset [0x30000053] [(2, 0xF0F0F0F0), (3, 0xFF00FF00)])) (·.reg 1) = some 0xEFF1EFF0 := by
  decide
/-- V-A29: source and destination are one register. -/
theorem test_add_alias :
    seen (step (preset [0x30000049] [(1, 0x80000001)])) (·.reg 1) = some 2 := by decide
/-- V-A11, V-A12. -/
theorem test_mul :
    seen (step (preset [0x40000053] [(2, 0x12345678), (3, 0x9ABCDEF0)])) (·.reg 1) = some 0x242D2080 ∧
    seen (step (preset [0x40000053] [(2, 0x80000000), (3, 0xFFFFFFFF)])) (·.reg 1) = some 0x80000000 := by
  decide
/-- V-A14, V-A15, V-A30. -/
theorem test_div :
    seen (step (preset [0x50000053] [(2, 0xFFFFFFFF), (3, 2)])) (·.reg 1) = some 0x7FFFFFFF ∧
    seen (step (preset [0x50000053] [(2, 0x80000000), (3, 0xFFFFFFFF)])) (·.reg 1) = some 0 ∧
    seen (step (preset [0x500000D3] [(2, 100), (3, 7)])) (·.reg 3) = some 14 := by decide
/-- V-A16, V-A17. -/
theorem test_div_zero :
    seen (step (preset [0x50000053] [(1, 0xAAAA), (2, 5)])) (fun t => (t.reg 1, engine t))
      = some (0xAAAA, 1, 6, 1) ∧
    seen (step (preset [0x50000053] [])) engine = some (1, 6, 1) := by decide
/-- V-A23, V-A24. -/
theorem test_nand :
    seen (step (preset [0x60000053] [(2, 0xF0F0F0F0), (3, 0xFF00FF00)])) (·.reg 1) = some 0x0FFF0FFF ∧
    seen (step (preset [0x60000053] [(2, 0x12345678), (3, 0x9ABCDEF0)])) (·.reg 1) = some 0xEDCBA98F := by
  decide
/-- V-A34. -/
theorem test_orth :
    seen (step (preset [0xDFFFFFFF] [(7, 0xFFFFFFFF)])) (·.reg 7) = some 0x01FFFFFF := by decide

/-- V-H6 and V-H5 at the offsets 1 and 2 of a block of two Words. -/
theorem test_aidx :
    seen (step (heaped [0x10000153] [(2, 1), (3, 1)])) (·.reg 5) = some 7 ∧
    seen (step (heaped [0x10000153] [(2, 1), (3, 2)])) (fun t => (t.reg 5, engine t))
      = some (0, 1, 4, 1) := by decide
/-- V-H4 (a free index), and the order of the two tests (95_test_vectors.md 2.6, priority). -/
theorem test_aidx_not_live :
    seen (step (heaped [0x10000153] [(2, 2)])) engine = some (1, 3, 1) ∧
    seen (step (heaped [0x10000153] [(2, 5), (3, 0xFFFFFFFF)])) engine = some (1, 3, 1) := by decide
/-- V-H14's Word with no block 1, V-H14 itself, and a store of 0, after which the cell is not listed. -/
theorem test_amend :
    seen (step (preset [0x20000049, 0] [(1, 1)])) engine = some (1, 3, 1) ∧
    seen (step (heaped [0x20000049] [(1, 1)])) (fun t => (t.peek 1 0, t.peek 1 1)) = some (some 0, some 1) ∧
    seen (step (heaped [0x2000009C] [(2, 1), (3, 1)])) (fun t => (t.peek 1 1, t.heap.map (·.2.cells.length)))
      = some (some 0, [1, 0]) := by decide
/-- V-H7: a store to the program. -/
theorem test_amend_program :
    seen (step (preset [0x20000001] [(1, 9)])) (·.peek 0 0) = some (some 9) := by decide
/-- V-H1 (size and index in one register) and P3 (the index freed last). -/
theorem test_alloc :
    seen (step (preset [0x80000009] [(1, 3)])) (fun t => (t.reg 1, t.size 1, t.peek 1 2, t.nextIndex))
      = some (1, 3, some 0, 2) ∧
    seen (step (heaped [0x80000011] [(1, 4)])) (fun t => (t.reg 2, t.freeList, t.nextIndex))
      = some (2, [], 3) := by decide
/-- V-H2 (a block of size 0), and the row of cause 9. -/
theorem test_alloc_edges :
    seen (step (preset [0x80000010] [])) (fun t => (t.live 1, t.size 1)) = some (true, 0) ∧
    seen (step (State.launch [0x80000008] [] .never)) (fun t => (t.reg 1, t.nextIndex, engine t))
      = some (0, 1, 1, 9, 1) := by decide
/-- P3, offsets 3 and 4: the top of the Free List is its end. -/
theorem test_aband :
    seen (step (heaped [0x90000002] [(2, 1)])) (fun t => (t.live 1, t.freeList, engine t))
      = some (false, [2, 1], 0, 0, 1) := by decide
/-- V-H10, V-H9, V-H11. -/
theorem test_aband_invalid :
    seen (step (heaped [0x90000000] [])) engine = some (1, 5, 1) ∧
    seen (step (heaped [0x90000001] [(1, 2)])) engine = some (1, 5, 1) ∧
    seen (step (heaped [0x90000001] [(1, 7)])) engine = some (1, 5, 1) := by decide

/-- V-C1. -/
theorem test_halt : seen (step (preset [0x70000000] [])) engine = some (1, 0, 1) := by decide
/-- S4, offset 5, and V-C4's first step. -/
theorem test_loadp :
    seen (step (heaped [0xC0000010, 5, 6] [(2, 1)])) (fun t => (t.pc, t.size 0, t.peek 0 0, t.peek 0 1))
      = some (0, 2, some 0, some 7) ∧
    seen (step (preset [0xC0000001] [(1, 100)])) engine = some (0, 0, 100) := by decide
/-- V-C5. -/
theorem test_loadp_not_live :
    seen (step (heaped [0xC0000010] [(2, 2)])) (fun t => (t.size 0, engine t)) = some (1, 1, 3, 1) := by
  decide
/-- V-I1, V-I3. -/
theorem test_out :
    seen (step (preset [0xA0000000] [(0, 255)])) (·.out) = some [255] ∧
    seen (step (preset [0xA0000000] [(0, 256)])) (fun t => (t.out, engine t)) = some ([], 1, 7, 1) := by decide
/-- V-I6, V-I8. -/
theorem test_in :
    seen (step (State.launch [0xB0000001] [.byte 0xFF, .eos] .always)) (fun t => (t.reg 1, t.inPos, t.eof))
      = some (0xFF, 1, false) ∧
    seen (step (State.launch [0xB0000001] [.eos] .always)) (fun t => (t.reg 1, t.inPos, t.eof))
      = some (0xFFFFFFFF, 1, true) := by decide
/-- V-I9, V-I7's third Input. -/
theorem test_in_waits_or_repeats :
    seen (step (State.launch [0xB0000001] [] .always)) id = some (State.launch [0xB0000001] [] .always) ∧
    seen (step { State.launch [0xB0000001] [.eos] .always with inPos := 1, eof := true })
      (fun t => (t.reg 1, t.inPos)) = some (0xFFFFFFFF, 1) := by decide

/-- V-E8, V-C3, and the priority of `pc` over the operation code (R119). -/
theorem test_loop_conditions :
    seen (step (preset [0xE0000000] [])) engine = some (1, 2, 1) ∧
    seen (step State.reset) engine = some (1, 8, 0) ∧
    seen (step { preset [0xF0000000] [] with pc := 1 }) engine = some (1, 8, 1) := by decide

/-- Image bytes of S1, and eleven of them. -/
theorem test_loader :
    (Loader.image [0xD0, 0, 0, 0x48, 0xA0, 0, 0, 0, 0x70, 0, 0, 0]).toOption
      = some [0xD0000048, 0xA0000000, 0x70000000] ∧
    (Loader.image [0xD0, 0, 0, 0x48, 0xA0, 0, 0, 0, 0x70, 0, 0]).toOption = none := by decide

/-! ## Witnesses: what meets the hypotheses of each statement -/

/-- The hypotheses of the statements about a step that executes `i`. -/
abbrev Executes (s : State) (w : Word) (i : Instr) : Prop :=
  s.status = .running ∧ s.memRead 0 s.pc.toNat = .ok w ∧ decode w = .ok i ∧
  ((∃ c, i = .inp c) → s.eof = true ∨ s.inPos < s.input.length)

/-- A canonical Word and one that is not. -/
theorem witness_EncodeOfDecodeIsCanonicalWord :
    (decode 0x300000D1#32 = .ok (.add 3 2 1) ∧ canonical 0x300000D1#32 = true) ∧
    (decode 0x7FFFFFFF#32 = .ok .halt ∧ canonical 0x7FFFFFFF#32 = false) := by decide

theorem witness_StandardLayoutFields :
    (0x00000000#32).extractLsb' 28 4 ≠ 13#4 ∧ (0xFFFFFFFF#32).extractLsb' 28 4 ≠ 13#4 ∧
    (0xC0000010#32).extractLsb' 28 4 ≠ 13#4 ∧ (0xE0000000#32).extractLsb' 28 4 ≠ 13#4 := by decide

theorem witness_OrthographyLayoutFields :
    (0xD0000000#32).extractLsb' 28 4 = 13#4 ∧ (0xDFFFFFFF#32).extractLsb' 28 4 = 13#4 := by decide

/-- Each of the sixteen clauses, with all other bits clear and with all of them set. -/
theorem witness_OpcodeMapByMaskAndMatch :
    ∀ k : Fin 16,
      BitVec.ofNat 32 (k.val * 2 ^ 28) &&& 0xF0000000#32 = BitVec.ofNat 32 (k.val * 2 ^ 28) ∧
      BitVec.ofNat 32 (k.val * 2 ^ 28 + (2 ^ 28 - 1)) &&& 0xF0000000#32 = BitVec.ofNat 32 (k.val * 2 ^ 28) := by
  decide

/-- One pair of Words for each clause. -/
theorem witness_IgnoredBitsHaveNoEffect :
    ((0x300000D1#32).extractLsb' 28 4 = (0x3FFFFED1#32).extractLsb' 28 4 ∧
      (0x300000D1#32).extractLsb' 28 4 ≠ 13#4 ∧
      (0x300000D1#32).extractLsb' 0 9 = (0x3FFFFED1#32).extractLsb' 0 9) ∧
    ((0x70000000#32).extractLsb' 28 4 = (0x7FFFFFFF#32).extractLsb' 28 4 ∧
      (0x70000000#32).extractLsb' 28 4 = 7#4) ∧
    ((0x80000011#32).extractLsb' 28 4 = (0x800001D1#32).extractLsb' 28 4 ∧
      (0x80000011#32).extractLsb' 28 4 = 8#4 ∧
      (0x80000011#32).extractLsb' 0 6 = (0x800001D1#32).extractLsb' 0 6) ∧
    ((0xC0000010#32).extractLsb' 28 4 = 12#4 ∧
      (0xC0000010#32).extractLsb' 0 6 = (0xCFFFFFD0#32).extractLsb' 0 6) ∧
    ((0x90000002#32).extractLsb' 28 4 = 9#4 ∧ (0xA0000002#32).extractLsb' 28 4 = 10#4 ∧
      (0xB0000002#32).extractLsb' 28 4 = 11#4 ∧
      (0x90000002#32).extractLsb' 0 3 = (0x9FFFFFFA#32).extractLsb' 0 3) := by decide

/-- An instruction, an Input with a token, and an Input after the end of the stream. -/
theorem witness_StepRunsDecodedInstruction :
    Executes (preset [0x30000053] []) 0x30000053#32 (.add 1 2 3) ∧
    Executes (State.launch [0xB0000001] [.eos] .always) 0xB0000001#32 (.inp 1) ∧
    Executes { State.launch [0xB0000001] [.eos] .always with inPos := 1, eof := true } 0xB0000001#32
      (.inp 1) := by
  refine ⟨⟨by decide, by decide, by decide, ?_⟩, ⟨by decide, by decide, by decide, fun _ => by decide⟩,
    by decide, by decide, by decide, fun _ => by decide⟩
  rintro ⟨_, h⟩; cases h

/-- An Addition, a Load Program that completes, and one that raises. -/
theorem witness_PcAdvancesUnlessLoadProgram :
    Executes (preset [0x30000053] []) 0x30000053#32 (.add 1 2 3) ∧
    (Executes (preset [0xC0000001] [(1, 100)]) 0xC0000001#32 (.loadp 0 1) ∧
      seen (exec (.loadp 0 1) (preset [0xC0000001] [(1, 100)])) (·.status) = some .running) ∧
    (Executes (heaped [0xC0000010] [(2, 2)]) 0xC0000010#32 (.loadp 2 0) ∧
      seen (exec (.loadp 2 0) (heaped [0xC0000010] [(2, 2)])) (·.status) = some .halted) := by
  refine ⟨⟨by decide, by decide, by decide, ?_⟩, ⟨⟨by decide, by decide, by decide, ?_⟩, by decide⟩,
    ⟨by decide, by decide, by decide, ?_⟩, by decide⟩ <;> rintro ⟨_, h⟩ <;> cases h

/-- The last offset of the longest block. -/
theorem witness_PcIncrementNeverWraps :
    State.memRead { State.reset with pc := 0xFFFFFFFE, heap := [(0, { size := 0xFFFFFFFF, cells := [] })] } 0
      (0xFFFFFFFE#32).toNat = .ok 0#32 := by decide

/-- An empty block, one step past the end, and the largest `pc`. -/
theorem witness_FetchBeyondBlockZeroRaises :
    (State.reset.status = .running ∧ State.reset.size 0 ≤ State.reset.pc.toNat) ∧
    (let s : State := { preset [0x70000000] [] with pc := 1 }
     s.status = .running ∧ s.size 0 ≤ s.pc.toNat) ∧
    (let s : State := { preset [0x70000000] [] with pc := 0xFFFFFFFF }
     s.status = .running ∧ s.size 0 ≤ s.pc.toNat) := by decide

theorem witness_IllegalOpcodeRaises :
    ((preset [0xE0000000] []).memRead 0 0 = .ok 0xE0000000#32 ∧
      (0xE0000000#32).extractLsb' 28 4 = 14#4) ∧
    ((preset [0xFFFFFFFF] []).memRead 0 0 = .ok 0xFFFFFFFF#32 ∧
      (0xFFFFFFFF#32).extractLsb' 28 4 = 15#4) ∧
    (preset [0xE0000000] []).status = .running ∧ (preset [0xE0000000] []).pc.toNat = 0 := by decide

theorem witness_HaltedStateNeverChanges :
    ({ preset [0x70000000] [] with status := .halted, pc := 1 } : State).status = .halted := by decide

theorem witness_InputHoldsUntilSupplied :
    let s := State.launch [0xB0000001] [] .always
    s.status = .running ∧ s.memRead 0 s.pc.toNat = .ok 0xB0000001#32 ∧
    decode 0xB0000001#32 = .ok (.inp 1) ∧ s.eof = false ∧ s.input.length ≤ s.inPos ∧
    s.inPos = s.input.length := by decide

/-- A running machine that goes on, one that halts, one that raises; and a halted one. -/
theorem witness_StateMachineTransitions :
    (let s := preset [0x30000053] []
     s.status = .running ∧ s.cause = none ∧ seen (step s) engine = some (0, 0, 1)) ∧
    (let s := preset [0x70000000] []
     s.status = .running ∧ s.cause = none ∧ seen (step s) engine = some (1, 0, 1)) ∧
    (let s := preset [0x50000000] []
     s.status = .running ∧ s.cause = none ∧ seen (step s) engine = some (1, 6, 1)) ∧
    (let s : State := { preset [0x70000000] [] with status := .halted, cause := some .divisionByZero, pc := 1 }
     s.status = .halted ∧ seen (step s) engine = some (1, 6, 1)) := by decide

/-- The register statements' Words, and a test register at 0, at 1 and at all ones but the low bits. -/
theorem witness_ConditionalMoveTestsWholeWord :
    (0x00000053#32).extractLsb' 28 4 = 0#4 ∧
    ((preset [] [(3, 1)]).reg 3).toNat ≠ 0 ∧ ((preset [] [(3, 0x80000000)]).reg 3).toNat ≠ 0 ∧
    ((preset [] [(3, 0)]).reg 3).toNat = 0 := by decide

theorem witness_AdditionWraps : (0x3FFFFED1#32).extractLsb' 28 4 = 3#4 := by decide

theorem witness_MultiplicationWraps : (0x40000053#32).extractLsb' 28 4 = 4#4 := by decide

/-- Divisors 1, 2^32 - 1 and 0. -/
theorem witness_DivisionIsUnsignedFloor :
    (0x50000053#32).extractLsb' 28 4 = 5#4 ∧
    ((preset [] [(3, 1)]).reg 3).toNat ≠ 0 ∧ ((preset [] [(3, 0xFFFFFFFF)]).reg 3).toNat ≠ 0 ∧
    ((preset [] [(3, 0)]).reg 3).toNat = 0 := by decide

/-- The highest and lowest bit. -/
theorem witness_NandOfEveryBit : (0x60000053#32).extractLsb' 28 4 = 6#4 ∧ 0 < 32 ∧ 31 < 32 := by decide

theorem witness_OrthographyZeroExtends : (0xDB234567#32).extractLsb' 28 4 = 13#4 := by decide

theorem witness_NegationIdiom : (1 : Reg) ≠ 3 := by decide

/-- Live with the last offset, live with an offset equal to the size, free, unassigned. -/
theorem witness_MemReadContract :
    let s := heaped [0x70000000] []
    s.live 2 = false ∧ s.live 3 = false ∧ (s.live 1 = true ∧ s.size 1 ≤ 2) ∧
    (s.live 1 = true ∧ 1 < s.size 1) ∧ (s.live 0 = true ∧ 0 < s.size 0) := by decide

theorem witness_MemWriteContract :
    let s := heaped [0x70000000] []
    s.live 2 = false ∧ (s.live 1 = true ∧ s.size 1 ≤ 2) ∧ (s.live 1 = true ∧ 1 < s.size 1) ∧
    (0, 0) ≠ (1, 1) := by decide

theorem witness_ReclaimContract :
    let s := heaped [0x70000000] []
    s.live 2 = false ∧ s.live 3 = false ∧ s.live 0 = true ∧ (1 ≠ 0 ∧ s.live 1 = true) ∧
    ((s.reclaim 1).bind (·.alloc 5)).toOption.map (·.2) = some 1 := by decide

/-- A free source; a live one, with a store into each copy after it. -/
theorem witness_ReplaceZeroContract :
    let s := heaped [0x70000000] []
    (2 ≠ 0 ∧ s.live 2 = false) ∧ (1 ≠ 0 ∧ s.live 1 = true) ∧
    ((s.replaceZero 1).bind (·.memWrite 1 1 9)).toOption.isSome = true ∧
    ((s.replaceZero 1).bind (·.memWrite 0 1 9)).toOption.isSome = true := by decide

theorem witness_ArrayIndexLoads :
    let s := heaped [0x10000153] [(2, 1), (3, 1), (4, 2)]
    (0x10000153#32).extractLsb' 28 4 = 1#4 ∧
    (s.live (s.reg 2).toNat = true ∧ (s.reg 3).toNat < s.size (s.reg 2).toNat) ∧
    s.live (s.reg 4).toNat = false ∧
    (s.live (s.reg 2).toNat = true ∧ s.size (s.reg 2).toNat ≤ (s.reg 4).toNat) := by decide

theorem witness_ArrayAmendmentStores :
    let s := heaped [0x2000009C] [(2, 1), (3, 1), (4, 2)]
    (0x2000009C#32).extractLsb' 28 4 = 2#4 ∧
    (s.live (indexOfWord (s.reg 2)) = true ∧ offsetOfWord (s.reg 3) < s.size (indexOfWord (s.reg 2))) ∧
    s.live (indexOfWord (s.reg 4)) = false ∧
    (s.live (indexOfWord (s.reg 2)) = true ∧ s.size (indexOfWord (s.reg 2)) ≤ offsetOfWord (s.reg 4)) ∧
    (0, 0) ≠ (indexOfWord (s.reg 2), offsetOfWord (s.reg 3)) := by decide

/-- A free index, no free index, and an index that no Word can name. -/
theorem witness_AllocationCreatesZeroBlock :
    (0x800001D1#32).extractLsb' 28 4 = 8#4 ∧
    (let s := heaped [0x80000011] [(1, 4)]
     s.admits (s.reg 1) = true ∧ s.nextAllocIndex < 2 ^ 32 ∧ s.freeList = [] ++ [2]) ∧
    (let s := preset [0x80000011] [(1, 0xFFFFFFFF)]
     s.admits (s.reg 1) = true ∧ s.nextAllocIndex < 2 ^ 32 ∧ s.freeList = []) ∧
    (let s : State := { preset [0x80000011] [] with nextIndex := 2 ^ 32 }
     s.admits (s.reg 1) = true ∧ ¬ s.nextAllocIndex < 2 ^ 32) := by decide

theorem witness_AllocationRefusedByAdmission :
    State.reset.allocAdmit = .always ∧ (State.launch [0x80000008] [] .never).admits 0 = false ∧
    (State.launch [0x80000008] [] .never).reg 0 = 0 := by decide

theorem witness_AbandonmentFreesIndex :
    let s := heaped [0x90000001] [(1, 1), (2, 2), (3, 3)]
    (0x90000001#32).extractLsb' 28 4 = 9#4 ∧
    ((s.reg 1).toNat ≠ 0 ∧ s.live (s.reg 1).toNat = true) ∧
    (s.reg 0).toNat = 0 ∧ s.live (s.reg 2).toNat = false ∧ s.live (s.reg 3).toNat = false := by decide

theorem witness_HaltEndsRunCleanly : (0x7FFFFFFF#32).extractLsb' 28 4 = 7#4 := by decide

theorem witness_LoadProgramReplacesAndJumps :
    let s := heaped [0xC0000010] [(2, 1), (4, 2)]
    (0xC0000010#32).extractLsb' 28 4 = 12#4 ∧ (s.reg 0).toNat = 0 ∧
    ((s.reg 2).toNat ≠ 0 ∧ s.live (s.reg 2).toNat = true) ∧
    ((s.reg 4).toNat ≠ 0 ∧ s.live (s.reg 4).toNat = false) ∧
    (s.status = .running ∧
      seen (exec (.loadp 2 4) s) (fun t => (t.status, decide (t.size 0 ≤ (s.reg 4).toNat)))
        = some (.running, true)) := by decide

theorem witness_ConditionalJumpIdiom :
    let s := preset [] [(1, 1), (4, 5), (6, 10)]
    (0 : Reg) ≠ 6 ∧ (s.reg 0).toNat = 0 ∧ (s.reg 1).toNat ≠ 0 ∧ (s.reg 7).toNat = 0 := by decide

/-- Block 1 live, and after its load a store at its last offset into either copy. -/
theorem witness_LoadProgramCopiesDoNotAlias :
    let s := heaped [0xC0000010] [(2, 1)]
    (s.reg 2).toNat ≠ 0 ∧ s.live (s.reg 2).toNat = true ∧ 1 < s.size (s.reg 2).toNat ∧
    seen (exec (.loadp 2 0) s) (fun t =>
      ((t.memWrite (s.reg 2).toNat 1 9).toOption.isSome, (t.memWrite 0 1 9).toOption.isSome))
      = some (true, true) := by decide

/-- Values 0, 255, 256 and 2^32 - 1. -/
theorem witness_OutputEmitsByteOrRaises :
    let s := preset [] [(1, 255), (2, 256), (3, 0xFFFFFFFF)]
    (0xA0000005#32).extractLsb' 28 4 = 10#4 ∧ (s.reg 0).toNat ≤ 255 ∧ (s.reg 1).toNat ≤ 255 ∧
    255 < (s.reg 2).toNat ∧ 255 < (s.reg 3).toNat := by decide

/-- Bytes 0 and 255, the end of the stream, and after it. -/
theorem witness_InputReadsNextToken :
    (0xB0000001#32).extractLsb' 28 4 = 11#4 ∧
    (let s := State.launch [] [.byte 0, .byte 255, .eos] .always
     s.eof = false ∧ s.inPos < s.input.length ∧ s.input[s.inPos]? = some (.byte 0)) ∧
    (let s : State := { State.launch [] [.byte 0, .byte 255, .eos] .always with inPos := 1 }
     s.eof = false ∧ s.input[s.inPos]? = some (.byte 255)) ∧
    (let s : State := { State.launch [] [.byte 0, .byte 255, .eos] .always with inPos := 2 }
     s.eof = false ∧ s.inPos < s.input.length ∧ s.input[s.inPos]? = some .eos) ∧
    (let s : State := { State.launch [] [.eos] .always with inPos := 1, eof := true }
     s.eof = true ∧ ¬ s.inPos < s.input.length) := by decide

/-- The state after an Input at the end of the stream. -/
def ended : State :=
  { State.launch [0xB0000001, 0xB0000002] [.eos] .always with
    x := #v[0, 0xFFFFFFFF, 0, 0, 0, 0, 0, 0], pc := 1, inPos := 1, eof := true }

/-- An Input, then a token that comes too late, then a step. -/
theorem witness_EndOfStreamIsPermanent :
    let s : State := { State.launch [0xB0000001, 0xB0000002] [.eos] .always with pc := 1 }
    s.inPos < s.input.length ∧ exec (.inp 1) s = .next ended ∧ ended.reg 1 = 0xFFFFFFFF#32 ∧
    ∃ u, Reaches ended u ∧ u.input = [.eos, .byte 7] ∧ u.reg 2 = 0xFFFFFFFF#32 := by
  refine ⟨by decide, rfl, rfl, _, .step (.supply (.byte 7) .here) rfl, rfl, rfl⟩

/-- An Output that does not raise, a step that emits, one that does not, and a run of one step. -/
theorem witness_OutputOnlyGrows :
    ((preset [] [(1, 255)]).cause = none ∧
      seen (exec (.out 1) (preset [] [(1, 255)])) (·.cause) = some none) ∧
    seen (step (preset [0xA0000000] [])) (·.out) = some [0] ∧
    seen (step (preset [0x30000053] [])) (·.out) = some [] ∧
    Reaches (preset [0xA0000000] []) ((preset [0xA0000000] []).advance.emit 0) := by
  refine ⟨by decide, by decide, by decide, .step .here rfl⟩

theorem witness_StepConsumesAtMostOneToken :
    seen (step (State.launch [0xB0000001] [.byte 9, .eos] .always)) (·.inPos) = some 1 := by decide

/-- The first code and the last. -/
theorem witness_CauseCodesAreDistinct :
    causeCode none = causeCode none ∧
    causeCode (some .allocationExhausted) = causeCode (some .allocationExhausted) := by decide

/-- A raise by the fetch, by the operation code, and by an instruction. -/
theorem witness_FatalConditionsArePrecise :
    (State.reset.status = .running ∧ State.reset.cause = none ∧
      seen (step State.reset) (·.cause) = some (some .programCounterOutOfRange)) ∧
    ((preset [0xF0000000] []).status = .running ∧ (preset [0xF0000000] []).cause = none ∧
      seen (step (preset [0xF0000000] [])) (·.cause) = some (some .unknownOpcode)) ∧
    ((preset [0x50000000] []).status = .running ∧ (preset [0x50000000] []).cause = none ∧
      seen (step (preset [0x50000000] [])) (·.cause) = some (some .divisionByZero)) := by decide

/-- One raise of each arm that has one. -/
theorem witness_ConditionsOfEachInstruction :
    let s := heaped [] [(1, 1), (2, 2), (3, 256)]
    s.cause = none ∧
    seen (exec (.aidx 0 2 0) s) (·.cause) = some (some .outOfBoundsArray) ∧
    seen (exec (.amend 1 2 0) s) (·.cause) = some (some .outOfBoundsOffset) ∧
    seen (exec (.div 0 1 0) s) (·.cause) = some (some .divisionByZero) ∧
    seen (exec (.alloc 1 0) { s with allocAdmit := .never }) (·.cause) = some (some .allocationExhausted) ∧
    seen (exec (.aband 2) s) (·.cause) = some (some .invalidReclaim) ∧
    seen (exec (.out 3) s) (·.cause) = some (some .outputRangeError) ∧
    seen (exec (.loadp 2 0) s) (·.cause) = some (some .outOfBoundsArray) := by decide

/-- One, two and three bytes, none and four, and a step. -/
theorem witness_MalformedImageIsLoaderOnly :
    ([0] : List Byte).length % 4 ≠ 0 ∧ ([0, 1] : List Byte).length % 4 ≠ 0 ∧
    ([0, 1, 2] : List Byte).length % 4 ≠ 0 ∧ ([] : List Byte).length % 4 = 0 ∧
    ([0, 1, 2, 3] : List Byte).length % 4 = 0 ∧ State.reset.cause ≠ some .malformedImage ∧
    seen (step State.reset) (·.pc) = some 0 := by decide

/-- A run, an abandonment, both kinds of allocation, a store, and a step. -/
theorem witness_HeapInvariantsOfTheSpec :
    let s := heaped [0x90000001] [(1, 1)]
    s.live 0 = true ∧ seen (step s) (·.live 1) = some false ∧
    0 ≠ 1 ∧ (s.memWrite 0 0 9).toOption.isSome = true ∧ (s.reclaim 1).toOption.isSome = true ∧
    (s.freeList ≠ [] ∧ (s.alloc 3).toOption.map (·.2) = some 2) ∧
    ((preset [] []).freeList = [] ∧ ((preset [] []).alloc 0).toOption.map (·.2) = some 1) ∧
    Reaches (State.launch [] [] .always) ((State.launch [] [] .always).supply .eos) := by
  refine ⟨by decide, by decide, by decide, by decide, by decide, by decide, by decide, .supply _ .here⟩

/-- The invariant holds where block 1 is live, index 2 is free and 3 is unassigned. -/
theorem witness_Inv_heaped (regs : List (Reg × Word)) : (heaped [0x70000000] regs).Inv := by
  have frame : ∀ (regs : List (Reg × Word)) (s : State),
      ∃ x, regs.foldl (fun s p => s.setReg p.1 p.2) s = { s with x := x } := by
    intro regs
    induction regs with
    | nil => exact fun s => ⟨s.x, rfl⟩
    | cons p rest ih => exact fun s => (ih (s.setReg p.1 p.2)).imp fun _ h => h
  obtain ⟨x, h⟩ := frame regs (State.launch [0x70000000] [] .always)
  have live : ∀ i, (heaped [0x70000000] regs).live i = true ↔ i = 0 ∨ i = 1 := by
    intro i
    simp only [State.live, State.block, heaped, Assoc.lookup]
    split
    · simp [← ‹_ = i›]
    · split
      · simp [← ‹_ = i›]
      · simp; omega
  have dead : ∀ i, (heaped [0x70000000] regs).live i = false ↔ ¬ (i = 0 ∨ i = 1) := by
    intro i; rw [← live, Bool.not_eq_true]
  constructor
  · show Memory.wf [(0, Block.ofWords [0x70000000]), (1, { size := 2, cells := [(1, 7)] })]
    decide
  · exact (live 0).2 (.inl rfl)
  · show [2].Nodup
    decide
  · intro i
    rw [dead]
    show i ∈ [2] ↔ i < 3 ∧ _
    rw [List.mem_singleton]
    omega
  · intro i hi
    show i < 3
    have := (live i).1 hi
    omega
  · intro i hi
    have : i = 2 := List.mem_singleton.1 hi
    omega
  all_goals simp only [heaped, preset, h]; simp [State.launch, State.reset]

/-- A live, a free and an unassigned index. -/
theorem witness_EachIndexIsInOneState :
    (heaped [0x70000000] []).Inv ∧ (heaped [0x70000000] []).live 1 = true ∧
    2 ∈ (heaped [0x70000000] []).freeList ∧ (heaped [0x70000000] []).nextIndex ≤ 3 :=
  ⟨witness_Inv_heaped [], by decide⟩

theorem witness_AllocatedIndexWasNotLive :
    (heaped [0x70000000] []).Inv ∧ ((heaped [0x70000000] []).alloc 4).toOption.map (·.2) = some 2 :=
  ⟨witness_Inv_heaped [], by decide⟩

theorem witness_ReclaimedIndexIsReusedAtOnce :
    (heaped [0x70000000] []).Inv ∧ ∃ s1 s2, (heaped [0x70000000] []).alloc 4 = .ok (s1, 2) ∧
      s1.reclaim 2 = .ok s2 ∧ s2.admits 5 = true :=
  ⟨witness_Inv_heaped [], _, _, rfl, rfl, rfl⟩

theorem witness_TwoReclaimedIndicesReturnInReverse :
    ∃ s s1 s2 s3 : State, s.reclaim 1 = .ok s1 ∧ s1.reclaim 3 = .ok s2 ∧ s2.alloc 4 = .ok (s3, 3) ∧
      s3.admits 5 = true :=
  ⟨{ heaped [0x70000000] [] with
      heap := [(0, Block.zero 1), (1, Block.zero 2), (3, Block.zero 3)], nextIndex := 4 },
    _, _, _, rfl, rfl, rfl, rfl⟩

/-- States that differ in sizes, registers and streams. -/
theorem witness_AllocatedIndexIsDetermined :
    let s := heaped [0x70000000] []
    let s' : State := { heaped [0xA0000000, 0] [(4, 9)] with out := [1] }
    s.freeList = s'.freeList ∧ s.nextIndex = s'.nextIndex ∧
    (s.alloc 4).toOption.map (·.2) = some 2 ∧ (s'.alloc 0).toOption.map (·.2) = some 2 := by decide

/-- `amend r2, r3, r4`, then `aidx` with the same registers. -/
theorem witness_StoredWordIsLoadedNext :
    let s := heaped [] [(2, 1), (3, 1), (4, 9)]
    s.cause = none ∧ seen (exec (.amend 2 3 4) s) (fun t =>
      (decide (t.cause = s.cause), decide (t.reg 2 = s.reg 2), decide (t.reg 3 = s.reg 3)))
      = some (true, true, true) := by decide

/-- P4 at its offset 3, moved to offset 0: the stored Word is a Halt. -/
theorem witness_StoreToProgramIsFetchedNext :
    let s := preset [0x2000001A, 0x50000000] [(3, 1), (2, 0x70000000)]
    s.status = .running ∧ s.memRead 0 s.pc.toNat = .ok 0x2000001A#32 ∧
    decode 0x2000001A#32 = .ok (.amend 0 3 2) ∧ s.reg 0 = 0#32 ∧ s.reg 3 = s.pc + 1 ∧
    (s.pc + 1).toNat < s.size 0 ∧ decode (s.reg 2) = .ok .halt ∧ ∀ d, Instr.halt ≠ .inp d := by decide

/-- The empty image and the longest one. -/
theorem witness_LaunchStateIsTheResetTable :
    Image.wf [] ∧ Image.wf (List.replicate (2 ^ 32 - 1) 0x70000000#32) := by
  refine ⟨by decide, ?_⟩
  simp only [Image.wf, List.length_replicate, Config.maxBlockWords]
  decide

/-- The first and the last Word of an image. -/
theorem witness_LoaderGroupsBigEndian :
    Loader.image [0xD0, 0, 0, 0x48, 0x70, 1, 2, 3] = .ok [0xD0000048, 0x70010203] ∧
    ([0xD0000048, 0x70010203] : List Word)[0]? = some 0xD0000048 ∧
    ([0xD0000048, 0x70010203] : List Word)[1]? = some 0x70010203 := by decide

theorem witness_StepKeepsTheStateInvariant :
    (heaped [0x70000000] []).Inv ∧ seen (step (heaped [0x70000000] [])) engine = some (1, 0, 1) :=
  ⟨witness_Inv_heaped [], by decide⟩

theorem witness_HostMovesMeetTheStateInvariant :
    Image.wf [0x70000000] ∧ (heaped [0x70000000] []).Inv := ⟨by decide, witness_Inv_heaped []⟩

end Sys2Proof.Tests
end

namespace Sys2Proof.Machine

/-! ## Index 0 stays live (10_state.md R16 (a)) -/

/-- A step leaves the Heap and the allocator alone, or it is one instruction, executed after the
advance. -/
theorem step_sameHeap_or_exec {s t : State} (h : step s = .next t) :
    (t.heap = s.heap ∧ t.freeList = s.freeList ∧ t.nextIndex = s.nextIndex) ∨
    (∃ i, exec i s.advance = .next t) := by
  rcases step_cases h with ⟨_, rfl⟩ | ⟨_, _, rfl⟩ | ⟨_, _, _, _, _, rfl⟩ |
    ⟨_, i, _, _, _, _, hexec⟩ | ⟨_, _, _, _, _, _, rfl⟩
  case inr.inr.inr.inl => exact .inr ⟨i, hexec⟩
  all_goals exact .inl (by simp)

/-- Only `Reclaim` erases from the Heap, and it refuses index 0. -/
theorem exec_keeps_live_zero {i : Instr} {s t : State} (h : exec i s = .next t)
    (h0 : s.live 0 = true) : t.live 0 = true := by
  rcases exec_heap_cases h with ⟨hheap, _, _⟩ | ⟨_, _, _, e⟩ | ⟨_, _, _, e, hheap, _, _⟩ | ⟨v, e⟩ |
    ⟨_, _, _, e, hheap, _, _⟩
  · rw [State.live_of_heap_eq hheap, h0]
  · obtain ⟨_, _, _, ht⟩ := State.memWrite_ok_iff.1 e
    simp [State.live_of_heap_insert (congrArg State.heap ht), h0]
  · obtain ⟨_, ⟨_, _, er⟩ | ⟨_, er⟩⟩ := State.alloc_ok_iff.1 e <;> cases er <;>
      simp [State.live_of_heap_insert hheap, h0]
  · obtain ⟨hv, _, ht⟩ := State.reclaim_ok_iff.1 e
    simp [State.live_of_heap_erase (congrArg State.heap ht), h0, hv.symm]
  · obtain ⟨_, _, rfl⟩ := State.replaceZero_ok_iff.1 e
    simp [State.live_of_heap_insert hheap]

theorem step_keeps_live_zero {s t : State} (h0 : s.live 0 = true) (h : step s = .next t) :
    t.live 0 = true := by
  rcases step_sameHeap_or_exec h with ⟨hheap, _, _⟩ | ⟨i, hexec⟩
  · rw [State.live_of_heap_eq hheap, h0]
  · exact exec_keeps_live_zero hexec h0

theorem Reaches.live_zero {s t : State} (h : Reaches s t) (h0 : s.live 0 = true) :
    t.live 0 = true := by
  induction h with
  | here => exact h0
  | step _ hstep ih => exact step_keeps_live_zero ih hstep
  | supply k _ ih => exact ih

theorem State.launch_live_zero (image : List Word) (input : List Token) (admission : AllocAdmit) :
    (State.launch image input admission).live 0 = true := by
  simp [State.live, State.launch_block]

/-! ## Blocks apart, and the order of the Free List (R16 (b) and (c)) -/

theorem State.memWrite_sameBlock_other {s t : State} {i j o : Nat} {v : Word} (hij : i ≠ j)
    (h : s.memWrite i o v = .ok t) : SameBlock j s t := by
  obtain ⟨b, _, _, rfl⟩ := State.memWrite_ok_iff.1 h
  exact SameBlock.of_block_eq (by rw [State.block_insert, if_neg hij.symm])

theorem State.reclaim_freeList {s t : State} {i : Nat} (h : s.reclaim i = .ok t) :
    t.freeList = s.freeList ++ [i] := by
  obtain ⟨_, _, rfl⟩ := State.reclaim_ok_iff.1 h
  rfl

/-- `Alloc` pops the last index of a Free List that holds one. -/
theorem State.alloc_reuses_last {s t : State} {n : Word} {i : Nat} (h : s.alloc n = .ok (t, i))
    (hfree : s.freeList ≠ []) : s.freeList = t.freeList ++ [i] ∧ t.nextIndex = s.nextIndex := by
  obtain ⟨_, ⟨j, hlast, e⟩ | ⟨hnil, _⟩⟩ := State.alloc_ok_iff.1 h
  · cases e
    exact ⟨(List.dropLast_append_getLast? i hlast).symm, rfl⟩
  · exact absurd hnil hfree

/-- `Alloc` mints `next_index` when the Free List is empty. -/
theorem State.alloc_mints {s t : State} {n : Word} {i : Nat} (h : s.alloc n = .ok (t, i))
    (hfree : s.freeList = []) :
    i = s.nextIndex ∧ t.freeList = [] ∧ t.nextIndex = s.nextIndex + 1 := by
  obtain ⟨_, ⟨j, hlast, _⟩ | ⟨hnil, e⟩⟩ := State.alloc_ok_iff.1 h
  · simp [hfree] at hlast
  · cases e
    exact ⟨rfl, hnil, rfl⟩

/-! ## Live, free or unassigned (R15) -/

theorem State.Inv.free_not_live {s : State} (h : s.Inv) {i : Nat} (hi : i ∈ s.freeList) :
    s.live i = false := ((h.freeExact i).1 hi).2

end Sys2Proof.Machine

namespace Sys2Proof

open Machine

/-- Settles O47: an induction over the run for (a), then what each primitive of the heap manager
answers. -/
theorem heapInvariantsOfTheSpec : Obligations.HeapInvariantsOfTheSpec :=
  ⟨fun image input admission _ h => h.live_zero (State.launch_live_zero image input admission),
    fun _ _ => step_keeps_live_zero,
    fun _ _ _ _ _ _ => State.memWrite_sameBlock_other,
    fun _ _ _ => State.reclaim_freeList,
    fun _ _ _ _ h => ⟨State.alloc_reuses_last h, State.alloc_mints h⟩⟩

/-- Settles O48: a case split on liveness, then on the side of `next_index` the index is on. -/
theorem eachIndexIsInOneState : Obligations.EachIndexIsInOneState := by
  intro s hinv i
  cases hlive : s.live i with
  | true =>
    have hfree : i ∉ s.freeList := fun hi => by simp [hinv.free_not_live hi] at hlive
    exact .inl ⟨rfl, hfree, hinv.liveBelow i hlive⟩
  | false =>
    rcases Nat.lt_or_ge i s.nextIndex with hlt | hge
    · exact .inr (.inl ⟨rfl, (hinv.freeExact i).2 ⟨hlt, hlive⟩, hlt⟩)
    · have hfree : i ∉ s.freeList := fun hi => absurd ((hinv.freeExact i).1 hi).1 (by omega)
      exact .inr (.inr ⟨rfl, hfree, hge⟩)

end Sys2Proof

namespace Sys2Proof.Machine

/-! ## The primitives on a valid and on an invalid address (20_memory.md R30, R33, R34) -/

/-- A valid address (R30): the index is live and the offset is below its block's size. -/
theorem State.exists_block_of_valid {s : State} {i o : Nat} (hlive : s.live i = true)
    (ho : o < s.size i) : ∃ b, s.block i = some b ∧ o < b.size.toNat := by
  obtain ⟨b, hb⟩ := State.live_iff.1 hlive
  exact ⟨b, hb, State.size_of_block hb ▸ ho⟩

theorem State.memRead_of_not_live {s : State} {i : Nat} (o : Nat) (h : s.live i = false) :
    s.memRead i o = .error .outOfBoundsArray :=
  State.memRead_error_iff.2 (.inl ⟨State.live_eq_false.1 h, rfl⟩)

theorem State.memRead_of_size_le {s : State} {i o : Nat} (hlive : s.live i = true)
    (ho : s.size i ≤ o) : s.memRead i o = .error .outOfBoundsOffset := by
  obtain ⟨b, hb⟩ := State.live_iff.1 hlive
  exact State.memRead_error_iff.2 (.inr ⟨b, hb, State.size_of_block hb ▸ ho, rfl⟩)

theorem State.peek_of_block {s : State} {i o : Nat} {b : Block} (hb : s.block i = some b)
    (ho : o < b.size.toNat) : s.peek i o = some (b.read o) := by
  rw [State.peek, State.memRead_ok_iff.2 ⟨b, hb, ho, rfl⟩]
  rfl

/-! ## What a primitive leaves in the Heap and beside it -/

/-- A write to the Heap alone is no write to the rest of the state. -/
theorem sameRest_of_heap (s : State) (m : Memory) : SameRest s { s with heap := m } :=
  ⟨rfl, ⟨rfl, rfl⟩, ⟨rfl, rfl⟩, ⟨rfl, rfl⟩, rfl, rfl, rfl⟩

theorem State.memWrite_frame {s t : State} {i o : Nat} {v : Word} (h : s.memWrite i o v = .ok t) :
    SameRegs s t ∧ SameRest s t := by
  obtain ⟨_, _, _, rfl⟩ := State.memWrite_ok_iff.1 h
  exact ⟨fun _ => rfl, sameRest_of_heap s _⟩

/-- The block written to: the one there was, with the cell at the offset written. -/
theorem State.memWrite_block {s t : State} {i o : Nat} {v : Word} (h : s.memWrite i o v = .ok t) :
    ∃ b, s.block i = some b ∧ o < b.size.toNat ∧ t.block i = some (b.write o v) := by
  obtain ⟨b, hb, ho, rfl⟩ := State.memWrite_ok_iff.1 h
  exact ⟨b, hb, ho, by rw [State.block_insert, if_pos rfl]⟩

theorem State.memWrite_live_size {s t : State} {i o : Nat} {v : Word}
    (h : s.memWrite i o v = .ok t) (j : Nat) : t.live j = s.live j ∧ t.size j = s.size j := by
  by_cases hj : i = j
  · subst hj
    obtain ⟨b, hb, _, ht⟩ := State.memWrite_block h
    exact ⟨by rw [State.live_iff.2 ⟨_, ht⟩, State.live_iff.2 ⟨_, hb⟩],
      by rw [State.size_of_block ht, State.size_of_block hb, Block.write_size]⟩
  · obtain ⟨hlive, hsize, _⟩ := State.memWrite_sameBlock_other hj h
    exact ⟨hlive, hsize⟩

theorem State.memWrite_peek_same {s t : State} {i o : Nat} {v : Word}
    (h : s.memWrite i o v = .ok t) : t.peek i o = some v := by
  obtain ⟨b, _, ho, ht⟩ := State.memWrite_block h
  rw [State.peek_of_block ht ho, Block.read_write, if_pos rfl]

theorem State.memWrite_peek_other {s t : State} {i o j p : Nat} {v : Word}
    (h : s.memWrite i o v = .ok t) (hne : (j, p) ≠ (i, o)) : t.peek j p = s.peek j p := by
  by_cases hj : i = j
  · subst hj
    have hp : p ≠ o := fun e => hne (by rw [e])
    obtain ⟨b, hb, _, ht⟩ := State.memWrite_block h
    simp [State.peek_eq, ht, hb, Block.read_write, hp]
  · obtain ⟨_, _, hpeek⟩ := State.memWrite_sameBlock_other hj h
    exact hpeek p

/-- An allocated block holds zeros only (R35). -/
theorem State.alloc_block {s u : State} {n : Word} {i : Nat} (h : s.alloc n = .ok (u, i)) :
    u.block i = some (Block.zero n) := by
  obtain ⟨_, ⟨_, _, e⟩ | ⟨_, e⟩⟩ := State.alloc_ok_iff.1 h <;> cases e <;>
    exact Assoc.lookup_insert_same _ _ _

theorem State.reclaim_not_live {s t : State} {i : Nat} (h : s.reclaim i = .ok t) :
    t.live i = false := by
  obtain ⟨_, _, ht⟩ := State.reclaim_ok_iff.1 h
  simp [State.live_of_heap_erase (congrArg State.heap ht)]

theorem State.reclaim_sameBlock_other {s t : State} {i j : Nat} (hj : j ≠ i)
    (h : s.reclaim i = .ok t) : SameBlock j s t := by
  obtain ⟨_, _, rfl⟩ := State.reclaim_ok_iff.1 h
  exact SameBlock.of_block_eq (Assoc.lookup_erase_other hj s.heap)

end Sys2Proof.Machine

namespace Sys2Proof

open Machine

/-- Settles O26: a refused write raises as the read does; an accepted one inserts the block with the
one cell written. -/
theorem memWriteContract : Obligations.MemWriteContract := by
  refine fun s i o v => ⟨fun h => ?_, fun hlive ho => ?_, fun hlive ho => ?_⟩
  · exact State.memWrite_error_iff.2 (State.memRead_of_not_live o h)
  · exact State.memWrite_error_iff.2 (State.memRead_of_size_le hlive ho)
  · obtain ⟨b, hb, hlt⟩ := State.exists_block_of_valid hlive ho
    have hw := State.memWrite_ok_iff (v := v).2 ⟨b, hb, hlt, rfl⟩
    exact ⟨_, hw, State.memWrite_peek_same hw, fun _ _ => State.memWrite_peek_other hw,
      State.memWrite_live_size hw, State.memWrite_frame hw⟩

/-- Settles O27: the erased index is not live, so a second `Reclaim` refuses it, and only an `Alloc`
that inserts a block of zeros brings it back. -/
theorem reclaimContract : Obligations.ReclaimContract := by
  refine fun s i => ⟨fun h => State.reclaim_error_iff.2 ⟨h, rfl⟩, fun h0 hlive => ?_⟩
  have hr := State.reclaim_ok_iff.2 ⟨h0, hlive, rfl⟩
  have hdead := State.reclaim_not_live hr
  refine ⟨_, hr, hdead, rfl, rfl, fun j hj => State.reclaim_sameBlock_other hj hr,
    State.reclaim_error_iff.2 ⟨.inr hdead, rfl⟩, fun n u hu => ?_, fun _ => rfl, rfl, ⟨rfl, rfl⟩,
    ⟨rfl, rfl⟩, rfl, rfl, rfl⟩
  have hzero := State.alloc_block hu
  exact ⟨State.size_of_block hzero, fun o ho => State.peek_of_block hzero ho⟩

/-- Settles O28: index 0 comes to list the source's block, and each of the two indices lists its own
copy, so that a write at one is a write beside the other. -/
theorem replaceZeroContract : Obligations.ReplaceZeroContract := by
  refine fun s i hi => ⟨fun h => ?_, fun hlive => ?_⟩
  · exact State.replaceZero_error_iff.2 ⟨State.live_eq_false.1 h, rfl⟩
  · obtain ⟨b, hb⟩ := State.live_iff.1 hlive
    have hcopy : State.block { s with heap := Assoc.insert 0 b s.heap } 0 = some b := by
      rw [State.block_insert, if_pos rfl]
    refine ⟨_, State.replaceZero_ok_iff.2 ⟨b, hb, rfl⟩, State.live_iff.2 ⟨b, hcopy⟩, ?_,
      fun o => ?_, fun j hj => ?_, fun _ => rfl, sameRest_of_heap s _, fun o v u => ?_⟩
    · rw [State.size_of_block hcopy, State.size_of_block hb]
    · rw [State.peek_eq, State.peek_eq, hcopy, hb]
    · exact SameBlock.of_block_eq (by rw [State.block_insert, if_neg hj])
    · exact ⟨State.memWrite_sameBlock_other hi, State.memWrite_sameBlock_other hi.symm⟩

/-- Settles O25: the two failures in their order, and the Word of the block at a valid address. -/
theorem memReadContract : Obligations.MemReadContract := by
  refine fun s i o => ⟨State.memRead_of_not_live o, State.memRead_of_size_le, fun hlive ho => ?_⟩
  obtain ⟨b, hb, hlt⟩ := State.exists_block_of_valid hlive ho
  exact ⟨b, hb, State.memRead_ok_iff.2 ⟨b, hb, hlt, rfl⟩⟩

end Sys2Proof

namespace Sys2Proof

/-! ## The fields as slices of the Word (30_encoding.md R51, R52) -/

/-- The model's `w[hi:lo]` is the slice of `hi - lo + 1` bits from bit `lo` on. -/
theorem bitField_eq_toNat_extractLsb' (w : Word) (hi lo : Nat) :
    bitField w hi lo = (w.extractLsb' lo (hi - lo + 1)).toNat := by
  rw [BitVec.extractLsb'_toNat, bitField]

theorem opField_eq_extractLsb' (w : Word) : opField w = (w.extractLsb' 28 4).toFin := by
  simp [opField, bitField_eq_toNat_extractLsb', Fin.ext_iff]

theorem aField_eq_extractLsb' (w : Word) : aField w = (w.extractLsb' 6 3).toFin := by
  simp [aField, bitField_eq_toNat_extractLsb', Fin.ext_iff]

theorem bField_eq_extractLsb' (w : Word) : bField w = (w.extractLsb' 3 3).toFin := by
  simp [bField, bitField_eq_toNat_extractLsb', Fin.ext_iff]

theorem cField_eq_extractLsb' (w : Word) : cField w = (w.extractLsb' 0 3).toFin := by
  simp [cField, bitField_eq_toNat_extractLsb', Fin.ext_iff]

theorem rField_eq_extractLsb' (w : Word) : rField w = (w.extractLsb' 25 3).toFin := by
  simp [rField, bitField_eq_toNat_extractLsb', Fin.ext_iff]

theorem immField_eq_extractLsb' (w : Word) : immField w = w.extractLsb' 0 25 := by
  rw [immField, bitField_eq_toNat_extractLsb', BitVec.ofNat_toNat, BitVec.setWidth_eq]

/-! ## The layout and the row, by the operation code (R50, R55) -/

theorem codec_of_op_ne_13 {w : Word} (h : w.extractLsb' 28 4 ≠ 13#4) :
    codec w = .std (w.extractLsb' 28 4).toFin (w.extractLsb' 6 3).toFin
      (w.extractLsb' 3 3).toFin (w.extractLsb' 0 3).toFin := by
  have hop : opField w ≠ 13 := fun e =>
    h (BitVec.eq_of_toFin_eq ((opField_eq_extractLsb' w).symm.trans e))
  rw [codec, if_neg hop, opField_eq_extractLsb', aField_eq_extractLsb', bField_eq_extractLsb',
    cField_eq_extractLsb']

theorem codec_of_op_eq_13 {w : Word} (h : w.extractLsb' 28 4 = 13#4) :
    codec w = .orth (w.extractLsb' 25 3).toFin (w.extractLsb' 0 25) := by
  have hop : opField w = 13 := by rw [opField_eq_extractLsb', h]; rfl
  rw [codec, if_pos hop, rField_eq_extractLsb', immField_eq_extractLsb']

/-- For a numeral `op` the right side computes to the row's instruction, or to the rejection of
R56. -/
theorem decode_of_op {w : Word} {op : BitVec 4} (hne : op ≠ 13#4) (h : w.extractLsb' 28 4 = op) :
    decode w = instrOfFields (.std op.toFin (w.extractLsb' 6 3).toFin (w.extractLsb' 3 3).toFin
      (w.extractLsb' 0 3).toFin) := by
  subst h
  rw [decode, codec_of_op_ne_13 hne]

theorem decode_of_op_eq_13 {w : Word} (h : w.extractLsb' 28 4 = 13#4) :
    decode w = .ok (.orth (w.extractLsb' 25 3).toFin (w.extractLsb' 0 25)) := by
  rw [decode, codec_of_op_eq_13 h, instrOfFields]

/-! ## Mask and match value (R55) -/

/-- The mask keeps bits 31 to 28 whole, so a match value `op << 28` fixes the operation code. -/
theorem op_of_mask_eq_match {w : Word} {op : BitVec 4}
    (h : w &&& 0xF0000000#32 = op.setWidth 32 <<< 28) : w.extractLsb' 28 4 = op :=
  calc w.extractLsb' 28 4
    _ = w.extractLsb' 28 4 &&& 15#4 := BitVec.and_allOnes.symm
    _ = (w &&& 0xF0000000#32).extractLsb' 28 4 := by rw [BitVec.extractLsb'_and]; rfl
    _ = (op.setWidth 32 <<< 28).extractLsb' 28 4 := by rw [h]
    _ = op := by
      ext i hi
      have hlt : 28 + i < 32 := by omega
      simp [hlt, BitVec.getLsbD_eq_getElem hi]

theorem decode_of_mask_eq_match {w : Word} (op : BitVec 4) (hne : op ≠ 13#4)
    (h : w &&& 0xF0000000#32 = op.setWidth 32 <<< 28) :
    decode w = instrOfFields (.std op.toFin (w.extractLsb' 6 3).toFin (w.extractLsb' 3 3).toFin
      (w.extractLsb' 0 3).toFin) :=
  decode_of_op hne (op_of_mask_eq_match h)

/-- Settles O5: the match value fixes the operation code, and the code selects the row; one line per
row of R55's table. -/
theorem opcodeMapByMaskAndMatch : Obligations.OpcodeMapByMaskAndMatch := fun _ =>
  ⟨decode_of_mask_eq_match 0 (by decide),
    decode_of_mask_eq_match 1 (by decide),
    decode_of_mask_eq_match 2 (by decide),
    decode_of_mask_eq_match 3 (by decide),
    decode_of_mask_eq_match 4 (by decide),
    decode_of_mask_eq_match 5 (by decide),
    decode_of_mask_eq_match 6 (by decide),
    decode_of_mask_eq_match 7 (by decide),
    decode_of_mask_eq_match 8 (by decide),
    decode_of_mask_eq_match 9 (by decide),
    decode_of_mask_eq_match 10 (by decide),
    decode_of_mask_eq_match 11 (by decide),
    decode_of_mask_eq_match 12 (by decide),
    fun h => decode_of_op_eq_13 (op_of_mask_eq_match h),
    decode_of_mask_eq_match 14 (by decide),
    decode_of_mask_eq_match 15 (by decide)⟩

/-- Settles O3: each field of the Standard layout is the slice at its bit positions. -/
theorem standardLayoutFields : Obligations.StandardLayoutFields := fun _ => codec_of_op_ne_13

/-- Settles O4: each field of the Orthography layout is the slice at its bit positions. -/
theorem orthographyLayoutFields : Obligations.OrthographyLayoutFields := fun _ => codec_of_op_eq_13

end Sys2Proof

namespace Sys2Proof.Machine

/-! ## What leaves RUNNING (40_execution_loop.md R72) -/

/-- `MalformedImage` is the Loader's condition (R109); a heap read raises its own two. -/
theorem State.memRead_error_ne_malformedImage {s : State} {i o : Nat} {k : FatalCondition}
    (h : s.memRead i o = .error k) : k ≠ .malformedImage := by
  rcases State.memRead_error_iff.1 h with ⟨_, rfl⟩ | ⟨_, _, _, rfl⟩ <;> decide

/-- What an instruction other than Halt can do to the engine: nothing, or a fatal condition, which is
not the Loader's. -/
theorem exec_sameEngine_or_raise {i : Instr} {s t : State} (hi : i ≠ .halt)
    (h : exec i s = .next t) :
    SameEngine s t ∨ ∃ k, k ≠ .malformedImage ∧ t = s.raise k := by
  cases i with
  | halt => exact absurd rfl hi
  | cmov a b c => rw [exec_cmov] at h; cases h; left; split <;> exact ⟨rfl, rfl⟩
  | add | mul | nand | orth => cases h; exact .inl ⟨rfl, rfl⟩
  | div a b c =>
    rcases exec_div_cases h with ⟨_, rfl⟩ | ⟨_, rfl⟩
    · exact .inl ⟨rfl, rfl⟩
    · exact .inr ⟨_, by decide, rfl⟩
  | aidx a b c =>
    rcases exec_aidx_cases h with ⟨_, _, rfl⟩ | ⟨k, hread, rfl⟩
    · exact .inl ⟨rfl, rfl⟩
    · exact .inr ⟨k, State.memRead_error_ne_malformedImage hread, rfl⟩
  | amend a b c =>
    rcases exec_amend_cases h with hwrite | ⟨k, hwrite, rfl⟩
    · obtain ⟨_, _, _, rfl⟩ := State.memWrite_ok_iff.1 hwrite
      exact .inl ⟨rfl, rfl⟩
    · have hread := State.memWrite_error_iff.1 hwrite
      exact .inr ⟨k, State.memRead_error_ne_malformedImage hread, rfl⟩
  | alloc b c =>
    rcases exec_alloc_cases h with ⟨u, j, halloc, rfl⟩ | ⟨_, rfl⟩
    · obtain ⟨_, _, hstatus, hcause, _⟩ := State.alloc_frame halloc
      exact .inl ⟨hstatus, hcause⟩
    · exact .inr ⟨_, by decide, rfl⟩
  | aband c =>
    rcases exec_aband_cases h with hreclaim | ⟨_, rfl⟩
    · obtain ⟨_, _, rfl⟩ := State.reclaim_ok_iff.1 hreclaim
      exact .inl ⟨rfl, rfl⟩
    · exact .inr ⟨_, by decide, rfl⟩
  | out c =>
    rcases exec_out_cases h with ⟨_, rfl⟩ | ⟨_, rfl⟩
    · exact .inl ⟨rfl, rfl⟩
    · exact .inr ⟨_, by decide, rfl⟩
  | inp c =>
    rcases exec_inp_cases h with ⟨u, v, htake, rfl⟩ | ⟨_, rfl⟩
    · obtain ⟨_, _, _, _, _, hstatus, hcause, _⟩ := State.takeInput_frame htake
      exact .inl ⟨hstatus, hcause⟩
    · exact .inl ⟨rfl, rfl⟩
  | loadp b c =>
    rcases exec_loadp_cases h with ⟨_, rfl⟩ | ⟨u, _, hreplace, rfl⟩ | ⟨_, _, rfl⟩
    · exact .inl ⟨rfl, rfl⟩
    · obtain ⟨_, _, rfl⟩ := State.replaceZero_ok_iff.1 hreplace
      exact .inl ⟨rfl, rfl⟩
    · exact .inr ⟨_, by decide, rfl⟩

/-- The codes of the conditions the core raises (R106, R109). -/
theorem causeCode_of_ne_malformedImage {k : FatalCondition} (hk : k ≠ .malformedImage) :
    1 < (causeCode (some k)).toNat ∧ (causeCode (some k)).toNat ≤ 9 := by
  cases k with
  | malformedImage => exact absurd rfl hk
  | _ => decide

/-- The Word at offset `pc` of Block 0 is a Halt. -/
def State.FetchesHalt (s : State) : Prop := ∃ w, s.fetch = .ok w ∧ decode w = .ok .halt

theorem State.fetchesHalt_iff {s : State} :
    s.FetchesHalt ↔ ∃ w, s.memRead 0 s.pc.toNat = .ok w ∧ decode w = .ok .halt := by
  simp only [State.FetchesHalt, State.fetch_ok_iff]

theorem State.not_fetchesHalt_iff {s : State} :
    ¬ s.FetchesHalt ↔ ∀ w, s.memRead 0 s.pc.toNat = .ok w → decode w ≠ .ok .halt := by
  simp only [State.fetchesHalt_iff, not_exists, not_and, ne_eq]

/-- The fetch has one answer, so a Word fetched decides whether the step fetches a Halt. -/
theorem State.fetchesHalt_iff_of_fetch {s : State} {w : Word} (h : s.fetch = .ok w) :
    s.FetchesHalt ↔ decode w = .ok .halt := by
  simp [State.FetchesHalt, h]

/-- A Halt is always enabled (R74), so where one is fetched the step executes it. -/
theorem step_engine_cases {s t : State} (hrun : s.status = .running) (h : step s = .next t) :
    (¬ s.FetchesHalt ∧ SameEngine s t) ∨
    (s.FetchesHalt ∧ t.status = .halted ∧ t.cause = none) ∨
    (¬ s.FetchesHalt ∧ t.status = .halted ∧ ∃ k, k ≠ .malformedImage ∧ t.cause = some k) := by
  rcases step_cases h with ⟨hhalt, _⟩ | ⟨_, hsize, rfl⟩ | ⟨w, op, _, hfetch, hdecode, rfl⟩ |
    ⟨w, i, _, hfetch, hdecode, _, hexec⟩ | ⟨w, i, _, hfetch, hdecode, hheld, rfl⟩
  · simp [hrun] at hhalt
  · have hfetch := State.fetch_error_iff.2 ⟨hsize, rfl⟩
    exact .inr (.inr ⟨by simp [State.FetchesHalt, hfetch], rfl, _, by decide, rfl⟩)
  · have hno : ¬ s.FetchesHalt := by simp [State.fetchesHalt_iff_of_fetch hfetch, hdecode]
    exact .inr (.inr ⟨hno, rfl, _, by decide, rfl⟩)
  · by_cases hi : i = .halt
    · subst hi
      cases hexec
      exact .inr (.inl ⟨⟨w, hfetch, hdecode⟩, rfl, rfl⟩)
    · have hno : ¬ s.FetchesHalt := by simp [State.fetchesHalt_iff_of_fetch hfetch, hdecode, hi]
      rcases exec_sameEngine_or_raise hi hexec with hsame | ⟨k, hk, rfl⟩
      · exact .inl ⟨hno, hsame⟩
      · exact .inr (.inr ⟨hno, rfl, k, hk, rfl⟩)
  · have hi : i ≠ .halt := by rintro rfl; cases hheld
    exact .inl ⟨by simp [State.fetchesHalt_iff_of_fetch hfetch, hdecode, hi], rfl, rfl⟩

theorem step_of_halted {s : State} (h : s.status = .halted) : step s = .next s := by
  simp [step, runStep, h]

end Sys2Proof.Machine

namespace Sys2Proof

open Machine

/-- Settles O16: the table of R72 is the three things a step can do to the engine; HALTED takes no
step, and the supply of a token touches the input alone. -/
theorem stateMachineTransitions : Obligations.StateMachineTransitions := by
  refine ⟨fun _ _ _ => ⟨rfl, rfl⟩, fun s t hrun hcause h => ?_, fun s t hhalt h => ?_,
    fun _ _ => ⟨rfl, rfl⟩⟩
  · rw [← State.fetchesHalt_iff, ← State.not_fetchesHalt_iff]
    rcases step_engine_cases hrun h with ⟨hno, hstatus, hsame⟩ | ⟨hyes, hstatus, hnone⟩ |
      ⟨hno, hstatus, k, hk, hraised⟩
    · exact .inl ⟨hstatus.trans hrun, hsame.trans hcause, hno⟩
    · exact .inr (.inl ⟨hstatus, hnone, hyes⟩)
    · obtain ⟨hlow, hhigh⟩ := causeCode_of_ne_malformedImage hk
      exact .inr (.inr ⟨hstatus, k, hraised, hlow, hhigh, hno⟩)
  · cases (step_of_halted hhalt).symm.trans h
    exact ⟨hhalt, rfl⟩

end Sys2Proof

namespace Sys2Proof.Machine

/-! ## Frames of the register instructions (41_register_alu.md) -/

theorem onlyReg_refl (r : Reg) (s : State) : OnlyReg r s s :=
  ⟨fun _ _ => rfl, SameHeap.of_heap_eq rfl, sameRest_of_heap s s.heap⟩

theorem onlyReg_setReg (s : State) (r : Reg) (v : Word) : OnlyReg r s (s.setReg r v) :=
  ⟨fun _ => State.reg_setReg_other s v, SameHeap.of_heap_eq rfl,
    rfl, ⟨rfl, rfl⟩, ⟨rfl, rfl⟩, ⟨rfl, rfl⟩, rfl, rfl, rfl⟩

theorem raised_raise (s : State) (k : FatalCondition) : Raised k s (s.raise k) :=
  ⟨rfl, rfl, rfl, fun _ => rfl, SameHeap.of_heap_eq rfl, ⟨rfl, rfl⟩, ⟨rfl, rfl⟩, rfl, rfl, rfl⟩

/-! ## The tests on the whole Word (R75, R78) -/

theorem isNonZero_iff {v : Word} : isNonZero v = true ↔ v.toNat ≠ 0 := by
  simp [isNonZero, BitVec.toNat_eq]

theorem isZeroDivisor_iff {v : Word} : isZeroDivisor v = true ↔ v.toNat = 0 := by
  simp [isZeroDivisor, BitVec.toNat_eq]

theorem exec_cmov_of_ne_zero {c : Reg} {s : State} (a b : Reg) (h : (s.reg c).toNat ≠ 0) :
    exec (.cmov a b c) s = .next (s.setReg a (s.reg b)) := by
  rw [exec_cmov, if_pos (isNonZero_iff.2 h)]

theorem exec_cmov_of_eq_zero {c : Reg} {s : State} (a b : Reg) (h : (s.reg c).toNat = 0) :
    exec (.cmov a b c) s = .next s := by
  rw [exec_cmov, if_neg fun hc => isNonZero_iff.1 hc h]

theorem exec_div_of_ne_zero {c : Reg} {s : State} (a b : Reg) (h : (s.reg c).toNat ≠ 0) :
    exec (.div a b c) s = .next (s.setReg a (s.reg b / s.reg c)) :=
  State.orRaise_eq_next.2 (.inl (if_neg fun hc => h (isZeroDivisor_iff.1 hc)))

theorem exec_div_of_eq_zero {c : Reg} {s : State} (a b : Reg) (h : (s.reg c).toNat = 0) :
    exec (.div a b c) s = .next (s.raise .divisionByZero) :=
  State.orRaise_eq_next.2 (.inr ⟨_, if_pos (isZeroDivisor_iff.2 h), rfl⟩)

/-! ## The values written (R79, R80) -/

theorem getLsbD_nand (v w : Word) {k : Nat} (hk : k < 32) :
    (~~~(v &&& w)).getLsbD k = !(v.getLsbD k && w.getLsbD k) := by
  simp [hk]

theorem immWord_toNat (imm : BitVec 25) : (immWord imm).toNat = imm.toNat :=
  BitVec.toNat_setWidth_of_le (by decide)

/-! ## Words of the Standard layout (R51, R55) -/

/-- A row of the opcode map that keeps all three register fields is the row of every Word of its
code. -/
theorem standardWords_of_row {op : BitVec 4} {mk : Reg → Reg → Reg → Instr} (hne : op ≠ 13#4)
    (hrow : ∀ a b c, instrOfFields (.std op.toFin a b c) = .ok (mk a b c)) : StandardWords op mk :=
  fun _ hop => (decode_of_op hne hop).trans (hrow _ _ _)

end Sys2Proof.Machine

namespace Sys2Proof

open Machine

/-- Settles O18: the test on the whole Word selects the write of `x[A]` or the state as it was. -/
theorem conditionalMoveTestsWholeWord : Obligations.ConditionalMoveTestsWholeWord := by
  refine ⟨standardWords_of_row (by decide) fun _ _ _ => rfl, fun a b c s => ?_⟩
  by_cases hc : (s.reg c).toNat = 0
  · exact ⟨s, exec_cmov_of_eq_zero a b hc, onlyReg_refl a s, fun hne => absurd hc hne, fun _ => rfl⟩
  · exact ⟨_, exec_cmov_of_ne_zero a b hc, onlyReg_setReg s a _,
      fun _ => State.reg_setReg_same s a _, fun hz => absurd hz hc⟩

/-- Settles O19: one register is written, with the sum of the two Words. -/
theorem additionWraps : Obligations.AdditionWraps :=
  ⟨standardWords_of_row (by decide) fun _ _ _ => rfl, fun a b c s =>
    ⟨_, exec_add a b c s, onlyReg_setReg s a _, by rw [State.reg_setReg_same, BitVec.toNat_add]⟩⟩

/-- Settles O20: one register is written, with the low 32 bits of the product. -/
theorem multiplicationWraps : Obligations.MultiplicationWraps :=
  ⟨standardWords_of_row (by decide) fun _ _ _ => rfl, fun a b c s =>
    ⟨_, exec_mul a b c s, onlyReg_setReg s a _, by rw [State.reg_setReg_same, BitVec.toNat_mul]⟩⟩

/-- Settles O21: a divisor other than 0 writes the quotient of the two naturals, and a divisor of 0
raises. -/
theorem divisionIsUnsignedFloor : Obligations.DivisionIsUnsignedFloor := by
  refine ⟨standardWords_of_row (by decide) fun _ _ _ => rfl,
    fun a b c s => ⟨fun hc => ?_, fun hc => ?_⟩⟩
  · exact ⟨_, exec_div_of_ne_zero a b hc, onlyReg_setReg s a _,
      by rw [State.reg_setReg_same, BitVec.toNat_udiv]⟩
  · exact ⟨_, exec_div_of_eq_zero a b hc, raised_raise s _⟩

/-- Settles O22: one register is written, and NOT of AND acts on each bit by itself. -/
theorem nandOfEveryBit : Obligations.NandOfEveryBit :=
  ⟨standardWords_of_row (by decide) fun _ _ _ => rfl, fun a b c s =>
    ⟨_, exec_nand a b c s, onlyReg_setReg s a _,
      fun _ hk => by rw [State.reg_setReg_same, getLsbD_nand _ _ hk]⟩⟩

/-- Settles O23: one register is written, and widening the immediate to 32 bits keeps its value. -/
theorem orthographyZeroExtends : Obligations.OrthographyZeroExtends :=
  ⟨fun _ => decode_of_op_eq_13, fun r imm s =>
    ⟨_, exec_orth r imm s, onlyReg_setReg s r _, by rw [State.reg_setReg_same, immWord_toNat]⟩⟩

end Sys2Proof

namespace Sys2Proof.Machine

/-! ## The heap instructions by what their primitive answers (R85, R86, R88) -/

theorem exec_aidx_of_ok {a b c : Reg} {s : State} {v : Word}
    (h : s.memRead (s.reg b).toNat (s.reg c).toNat = .ok v) :
    exec (.aidx a b c) s = .next (s.setReg a v) :=
  State.orRaise_eq_next.2 (.inl (congrArg (Except.map (s.setReg a)) h))

theorem exec_aidx_of_error {a b c : Reg} {s : State} {k : FatalCondition}
    (h : s.memRead (s.reg b).toNat (s.reg c).toNat = .error k) :
    exec (.aidx a b c) s = .next (s.raise k) :=
  State.orRaise_eq_next.2 (.inr ⟨k, congrArg (Except.map (s.setReg a)) h, rfl⟩)

theorem exec_amend_of_ok {a b c : Reg} {s t : State}
    (h : s.memWrite (s.reg a).toNat (s.reg b).toNat (s.reg c) = .ok t) :
    exec (.amend a b c) s = .next t :=
  State.orRaise_eq_next.2 (.inl h)

theorem exec_amend_of_error {a b c : Reg} {s : State} {k : FatalCondition}
    (h : s.memWrite (s.reg a).toNat (s.reg b).toNat (s.reg c) = .error k) :
    exec (.amend a b c) s = .next (s.raise k) :=
  State.orRaise_eq_next.2 (.inr ⟨k, h, rfl⟩)

theorem exec_aband_of_ok {c : Reg} {s t : State} (h : s.reclaim (s.reg c).toNat = .ok t) :
    exec (.aband c) s = .next t :=
  State.orRaise_eq_next.2 (.inl h)

theorem exec_aband_of_error {c : Reg} {s : State} {k : FatalCondition}
    (h : s.reclaim (s.reg c).toNat = .error k) : exec (.aband c) s = .next (s.raise k) :=
  State.orRaise_eq_next.2 (.inr ⟨k, h, rfl⟩)

end Sys2Proof.Machine

namespace Sys2Proof

open Machine

/-- Settles O30: the store and its two conditions are those of `MemWrite` (R34) at the address and
the value that the three registers name. -/
theorem arrayAmendmentStores : Obligations.ArrayAmendmentStores := by
  refine ⟨standardWords_of_row (by decide) fun _ _ _ => rfl, fun a b c s => ?_⟩
  obtain ⟨hdead, hbeyond, hvalid⟩ := memWriteContract s (s.reg a).toNat (s.reg b).toNat (s.reg c)
  refine ⟨fun hlive ho => ?_, fun h => ?_, fun hlive ho => ?_⟩
  · obtain ⟨t, hwrite, hstored⟩ := hvalid hlive ho
    exact ⟨t, exec_amend_of_ok hwrite, hstored⟩
  · exact ⟨_, exec_amend_of_error (hdead h), raised_raise s _⟩
  · exact ⟨_, exec_amend_of_error (hbeyond hlive ho), raised_raise s _⟩

/-- Settles O29: at a valid address the Word read is the one write, and the two failures of `MemRead`
(R33) are taken before any write. -/
theorem arrayIndexLoads : Obligations.ArrayIndexLoads := by
  refine ⟨standardWords_of_row (by decide) fun _ _ _ => rfl,
    fun a b c s => ⟨fun hlive ho => ?_, fun h => ?_, fun hlive ho => ?_⟩⟩
  · obtain ⟨blk, hblk, hlt⟩ := State.exists_block_of_valid hlive ho
    exact ⟨_, exec_aidx_of_ok (State.memRead_ok_iff.2 ⟨blk, hblk, hlt, rfl⟩), onlyReg_setReg s a _,
      by rw [State.reg_setReg_same, State.peek_of_block hblk hlt]⟩
  · exact ⟨_, exec_aidx_of_error (State.memRead_of_not_live _ h), raised_raise s _⟩
  · exact ⟨_, exec_aidx_of_error (State.memRead_of_size_le hlive ho), raised_raise s _⟩

/-- Settles O33: what is freed and what is refused is what `Reclaim` (R36) frees and refuses at the
index in `x[C]`. -/
theorem abandonmentFreesIndex : Obligations.AbandonmentFreesIndex := by
  refine ⟨fun _ => decode_of_op (by decide), fun c s => ?_⟩
  obtain ⟨hinvalid, hvalid⟩ := reclaimContract s (s.reg c).toNat
  refine ⟨fun h0 hlive => ?_, fun h => ?_⟩
  · obtain ⟨t, hreclaim, hdead, hfree, hnext, hother, _, _, hframe⟩ := hvalid h0 hlive
    exact ⟨t, exec_aband_of_ok hreclaim, hdead, hfree, hnext, hother, hframe⟩
  · exact ⟨_, exec_aband_of_error (hinvalid h), raised_raise s _⟩

end Sys2Proof

namespace Sys2Proof.Machine

/-! ## Load Program (43_control.md R94) -/

theorem exec_loadp_of_eq_zero {b : Reg} {s : State} (c : Reg) (h : (s.reg b).toNat = 0) :
    exec (.loadp b c) s = .next { s with pc := s.reg c } :=
  State.orRaise_eq_next.2 (.inl (by rw [if_pos h]; rfl))

theorem exec_loadp_of_ok {b : Reg} {s u : State} (c : Reg) (h : (s.reg b).toNat ≠ 0)
    (hu : s.replaceZero (s.reg b).toNat = .ok u) :
    exec (.loadp b c) s = .next { u with pc := s.reg c } :=
  State.orRaise_eq_next.2 (.inl (by rw [if_neg h, hu]; rfl))

theorem exec_loadp_of_error {b : Reg} {s : State} {k : FatalCondition} (c : Reg)
    (h : (s.reg b).toNat ≠ 0) (hk : s.replaceZero (s.reg b).toNat = .error k) :
    exec (.loadp b c) s = .next (s.raise k) :=
  State.orRaise_eq_next.2 (.inr ⟨k, by rw [if_neg h, hk]; rfl, rfl⟩)

/-- A Load Program that leaves the machine RUNNING has jumped: the one outcome that does not set `pc`
is the fatal condition, which halts. -/
theorem exec_loadp_pc_of_running {b c : Reg} {s t : State} (h : exec (.loadp b c) s = .next t)
    (hrun : t.status = .running) : t.pc = s.reg c := by
  rcases exec_loadp_cases h with ⟨_, rfl⟩ | ⟨_, _, _, rfl⟩ | ⟨_, _, rfl⟩
  · rfl
  · rfl
  · cases hrun

/-- The bounds check of loop step 1 (R67) fails before anything is fetched. -/
theorem step_of_size_le_pc {s : State} (hrun : s.status = .running) (h : s.size 0 ≤ s.pc.toNat) :
    step s = .next (s.raise .programCounterOutOfRange) := by
  have hfetch := State.fetch_error_iff.2 ⟨h, rfl⟩
  rw [step, runStep, hrun, hfetch]

end Sys2Proof.Machine

namespace Sys2Proof

open Machine

/-- Settles O35: Block 0 becomes what `ReplaceZero` (R37) makes of it, the jump touches `pc` alone,
and a target beyond the new size fails the next step's bounds check (R67). -/
theorem loadProgramReplacesAndJumps : Obligations.LoadProgramReplacesAndJumps := by
  refine ⟨fun _ => decode_of_op (by decide), fun b c s => ⟨fun h0 => ?_, fun h0 hlive => ?_,
    fun h0 hdead => ?_, fun t _ hexec hrun hbeyond => ?_⟩⟩
  · exact ⟨_, exec_loadp_of_eq_zero c h0, rfl, fun _ => rfl, SameHeap.of_heap_eq rfl, ⟨rfl, rfl⟩,
      ⟨rfl, rfl⟩, ⟨rfl, rfl⟩, rfl, rfl, rfl⟩
  · obtain ⟨_, hvalid⟩ := replaceZeroContract s (s.reg b).toNat h0
    obtain ⟨u, hreplace, hlive0, hsize, hpeek, hother, hregs, ⟨_, hrest⟩, _⟩ := hvalid hlive
    exact ⟨_, exec_loadp_of_ok c h0 hreplace, rfl, hlive0, hsize, hpeek, hother, hregs, hrest⟩
  · obtain ⟨hinvalid, _⟩ := replaceZeroContract s (s.reg b).toNat h0
    exact ⟨_, exec_loadp_of_error c h0 (hinvalid hdead), raised_raise s _⟩
  · have hpc := exec_loadp_pc_of_running hexec hrun
    exact ⟨_, step_of_size_le_pc hrun (hpc ▸ hbeyond), hpc, raised_raise t _⟩

end Sys2Proof

namespace Sys2Proof.Machine

/-! ## The streams along a run (44_io.md R98, R103) -/

/-- What a step can do to the streams: nothing, one byte emitted, or one answer of `In()`. -/
theorem step_stream_cases {s t : State} (h : step s = .next t) :
    (t.out = s.out ∧ t.inPos = s.inPos ∧ t.eof = s.eof ∧ t.input = s.input) ∨
    (∃ b, t = s.advance.emit b) ∨
    (∃ c u v, s.advance.takeInput = some (u, v) ∧ t = u.setReg c v) := by
  rcases step_cases h with ⟨_, rfl⟩ | ⟨_, _, rfl⟩ | ⟨_, _, _, _, _, rfl⟩ |
    ⟨_, i, _, _, _, _, hexec⟩ | ⟨_, _, _, _, _, _, rfl⟩
  case inr.inr.inr.inl => exact exec_stream_cases hexec
  all_goals exact .inl ⟨rfl, rfl, rfl, rfl⟩

/-! ## The latch -/

/-- No input byte reads as the sentinel: it is at most 255 (R99). -/
theorem byteWord_ne_endOfStreamWord (b : Byte) : byteWord b ≠ endOfStreamWord := by
  have hbyte : (byteWord b).toNat = b.toNat := BitVec.toNat_setWidth_of_le (by decide)
  have hsentinel : endOfStreamWord.toNat = 2 ^ 32 - 1 := rfl
  intro h
  have hle := b.isLt
  rw [← hbyte, h, hsentinel] at hle
  omega

theorem State.takeInput_of_eof {s : State} (h : s.eof = true) :
    s.takeInput = some (s, endOfStreamWord) :=
  if_pos h

theorem State.takeInput_keeps_eof {s u : State} {v : Word} (h : s.takeInput = some (u, v))
    (heof : s.eof = true) : u.eof = true := by
  cases (State.takeInput_of_eof heof).symm.trans h
  exact heof

/-- Only the latch, or the `eos` token that sets it, answers the sentinel. -/
theorem State.eof_of_takeInput_sentinel {s u : State}
    (h : s.takeInput = some (u, endOfStreamWord)) : u.eof = true := by
  rcases State.takeInput_cases s with ⟨heof, e⟩ | ⟨_, _, e⟩ | ⟨_, _, e⟩ | ⟨b, _, _, e⟩ <;>
    rw [e] at h
  · cases h; exact heof
  · cases h
  · cases h; rfl
  · injection h with h
    exact absurd (congrArg Prod.snd h) (byteWord_ne_endOfStreamWord b)

/-- Where the Input is enabled `In()` has an answer (R102). -/
theorem State.takeInput_ne_none {s : State} (h : s.eof = true ∨ s.inPos < s.input.length) :
    s.takeInput ≠ none := by
  rcases State.takeInput_cases s with ⟨_, e⟩ | ⟨hclear, hnone, _⟩ | ⟨_, _, e⟩ | ⟨_, _, _, e⟩
  case inr.inl =>
    have hbeyond := List.getElem?_eq_none_iff.1 hnone
    rcases h with hset | hlt
    · simp [hclear] at hset
    · exact absurd hlt (Nat.not_lt.2 hbeyond)
  all_goals simp [e]

theorem exec_inp_of_eof {s : State} (c : Reg) (h : s.eof = true) :
    exec (.inp c) s = .next (s.setReg c endOfStreamWord) := by
  rw [exec, execInp, State.takeInput_of_eof h]

/-- An enabled Input that answers the sentinel leaves the latch set. -/
theorem eof_of_exec_inp_sentinel {c : Reg} {s t : State}
    (hready : s.eof = true ∨ s.inPos < s.input.length) (h : exec (.inp c) s = .next t)
    (hsentinel : t.reg c = endOfStreamWord) : t.eof = true := by
  rcases exec_inp_cases h with ⟨u, v, htake, rfl⟩ | ⟨hnone, _⟩
  · rw [State.reg_setReg_same] at hsentinel
    subst hsentinel
    rw [State.setReg_eof, State.eof_of_takeInput_sentinel htake]
  · exact absurd hnone (State.takeInput_ne_none hready)

theorem step_keeps_eof {s t : State} (heof : s.eof = true) (h : step s = .next t) :
    t.eof = true := by
  rcases step_stream_cases h with ⟨_, _, hsame, _⟩ | ⟨_, rfl⟩ | ⟨_, u, _, htake, rfl⟩
  · rw [hsame, heof]
  · exact heof
  · rw [State.setReg_eof, State.takeInput_keeps_eof htake heof]

theorem Reaches.eof {s t : State} (h : Reaches s t) (heof : s.eof = true) : t.eof = true := by
  induction h with
  | here => exact heof
  | step _ hstep ih => exact step_keeps_eof ih hstep
  | supply _ _ ih => exact ih

/-! ## The output -/

theorem lowByte_toNat {v : Word} (h : v.toNat ≤ 255) : (lowByte v).toNat = v.toNat := by
  rw [lowByte, BitVec.toNat_setWidth, Nat.mod_eq_of_lt (by omega)]

theorem exceedsByte_iff {v : Word} : exceedsByte v = true ↔ 255 < v.toNat := decide_eq_true_iff

theorem exec_out_of_le {c : Reg} {s : State} (h : (s.reg c).toNat ≤ 255) :
    exec (.out c) s = .next (s.emit (lowByte (s.reg c))) :=
  State.orRaise_eq_next.2 (.inl (if_neg fun hc => Nat.not_lt.2 h (exceedsByte_iff.1 hc)))

theorem exec_out_of_lt {c : Reg} {s : State} (h : 255 < (s.reg c).toNat) :
    exec (.out c) s = .next (s.raise .outputRangeError) :=
  State.orRaise_eq_next.2 (.inr ⟨_, if_pos (exceedsByte_iff.2 h), rfl⟩)

/-- `In()` does not touch the output, so a byte emitted is all a step can do to it. -/
theorem step_out_cases {s t : State} (h : step s = .next t) :
    t.out = s.out ∨ ∃ b, t.out = s.out ++ [b] := by
  rcases step_stream_cases h with ⟨hsame, _⟩ | ⟨b, rfl⟩ | ⟨_, u, _, htake, rfl⟩
  · exact .inl hsame
  · exact .inr ⟨b, rfl⟩
  · obtain ⟨_, _, _, _, _, _, _, _, hout, _⟩ := State.takeInput_frame htake
    exact .inl hout

theorem step_out_grows {s t : State} (h : step s = .next t) : s.out <+: t.out := by
  rcases step_out_cases h with hsame | ⟨b, hemit⟩
  · rw [hsame]
  · exact ⟨[b], hemit.symm⟩

theorem Reaches.out_grows {s t : State} (h : Reaches s t) : s.out <+: t.out := by
  induction h with
  | here => exact List.prefix_rfl
  | step _ hstep ih => exact ih.trans (step_out_grows hstep)
  | supply _ _ ih => exact ih

end Sys2Proof.Machine

namespace Sys2Proof

open Machine

/-- Settles O40: an Input answers the sentinel only with the latch set, every move of a run keeps the
latch, and a set latch answers the sentinel. -/
theorem endOfStreamIsPermanent : Obligations.EndOfStreamIsPermanent := by
  intro s t u c d hready hexec hsentinel hrun
  have heof := hrun.eof (eof_of_exec_inp_sentinel hready hexec hsentinel)
  exact ⟨_, exec_inp_of_eof d heof, State.reg_setReg_same u d _⟩

/-- Settles O41: the output changes by one emitted byte or not at all in a step, so it grows by
induction along the run. -/
theorem outputOnlyGrows : Obligations.OutputOnlyGrows := by
  refine ⟨State.emit_out, fun c s t _ hexec hcause => ?_, fun _ _ => step_out_cases,
    fun _ _ => Reaches.out_grows⟩
  rcases exec_out_cases hexec with ⟨_, rfl⟩ | ⟨_, rfl⟩
  · exact ⟨_, rfl⟩
  · cases hcause

/-- Settles O38: a value up to 255 is its own low byte and is emitted; a larger one raises before
anything is emitted. -/
theorem outputEmitsByteOrRaises : Obligations.OutputEmitsByteOrRaises := by
  refine ⟨fun _ => decode_of_op (by decide), fun c s => ⟨fun hle => ?_, fun hlt => ?_⟩⟩
  · exact ⟨_, _, exec_out_of_le hle, lowByte_toNat hle, rfl, fun _ => rfl, SameHeap.of_heap_eq rfl,
      rfl, ⟨rfl, rfl⟩, ⟨rfl, rfl⟩, ⟨rfl, rfl⟩, rfl, rfl⟩
  · exact ⟨_, exec_out_of_lt hlt, raised_raise s _⟩

end Sys2Proof

namespace Sys2Proof.Machine

/-! ## The Loader's condition (60_exceptions.md R109) -/

/-- The Loader's two answers: the bytes end inside a group of four, or they are whole groups, one for
each Word. -/
theorem Loader.image_cases : ∀ bytes : List Byte,
    (bytes.length % 4 ≠ 0 ∧ Loader.image bytes = .error .malformedImage) ∨
    (∃ image, Loader.image bytes = .ok image ∧ image.length * 4 = bytes.length)
  | [] => .inr ⟨[], rfl, rfl⟩
  | [_] | [_, _] | [_, _, _] => .inl ⟨by simp, rfl⟩
  | b0 :: b1 :: b2 :: b3 :: rest => by
    rcases Loader.image_cases rest with ⟨hlen, hrest⟩ | ⟨image, hrest, hlen⟩
    · exact .inl ⟨by simp only [List.length_cons]; omega, by rw [Loader.image, hrest]; rfl⟩
    · exact .inr ⟨Loader.word b0 b1 b2 b3 :: image, by rw [Loader.image, hrest]; rfl,
        by simp only [List.length_cons]; omega⟩

theorem Loader.image_of_not_multiple {bytes : List Byte} (h : bytes.length % 4 ≠ 0) :
    Loader.image bytes = .error .malformedImage := by
  rcases Loader.image_cases bytes with ⟨_, herror⟩ | ⟨image, _, hlen⟩
  · exact herror
  · omega

theorem Loader.image_of_multiple {bytes : List Byte} (h : bytes.length % 4 = 0) :
    ∃ image, Loader.image bytes = .ok image ∧ image.length * 4 = bytes.length := by
  rcases Loader.image_cases bytes with ⟨hne, _⟩ | hok
  · exact absurd h hne
  · exact hok

theorem Loader.boot_of_image_error {bytes : List Byte} {k : FatalCondition}
    (h : Loader.image bytes = .error k) (input : List Token) (admission : AllocAdmit) :
    Loader.boot bytes input admission = .error k := by
  rw [Loader.boot, h]
  rfl

/-- A step keeps the cause, clears it (Halt), or takes a condition of the core. -/
theorem step_keeps_cause_ne_malformedImage {s t : State} (hs : s.cause ≠ some .malformedImage)
    (h : step s = .next t) : t.cause ≠ some .malformedImage := by
  cases hstatus : s.status with
  | halted =>
    cases (step_of_halted hstatus).symm.trans h
    exact hs
  | running =>
    rcases step_engine_cases hstatus h with ⟨_, _, hsame⟩ | ⟨_, _, hnone⟩ | ⟨_, _, k, hk, hraised⟩
    · rwa [hsame]
    · simp [hnone]
    · simpa [hraised] using hk

/-! ## Illegal operation codes (60_exceptions.md R110) -/

/-- R56: the opcode map has no row for the codes 14 and 15, whatever the other bits. -/
theorem decode_of_op_14_or_15 {w : Word}
    (h : w.extractLsb' 28 4 = 14#4 ∨ w.extractLsb' 28 4 = 15#4) :
    ∃ op, decode w = .error (.unknownOpcode op) := by
  rcases h with h | h <;> exact ⟨_, decode_of_op (by decide) h⟩

/-- Loop step 3 (R69) rejects after `pc` has advanced. -/
theorem step_of_decode_error {s : State} {w : Word} {op : Fin 16} (hrun : s.status = .running)
    (hfetch : s.fetch = .ok w) (hdecode : decode w = .error (.unknownOpcode op)) :
    step s = .next (s.advance.raise .unknownOpcode) := by
  simp only [step, runStep, hrun, hfetch, hdecode]

end Sys2Proof.Machine

namespace Sys2Proof

open Machine

/-- Settles O46: the Loader answers by the number of bytes modulo 4, boot passes its failure on, and no
step comes to its condition. -/
theorem malformedImageIsLoaderOnly : Obligations.MalformedImageIsLoaderOnly := by
  refine ⟨rfl, fun bytes hlen => ?_, fun _ => Loader.image_of_multiple,
    fun _ _ => step_keeps_cause_ne_malformedImage⟩
  have herror := Loader.image_of_not_multiple hlen
  exact ⟨herror, Loader.boot_of_image_error herror⟩

/-- Settles O12: the Word is fetched and `pc` advanced before the decoder's rejection raises. -/
theorem illegalOpcodeRaises : Obligations.IllegalOpcodeRaises := by
  intro s w hrun hread hop
  obtain ⟨op, hdecode⟩ := decode_of_op_14_or_15 hop
  exact ⟨_, step_of_decode_error hrun (State.fetch_ok_iff.2 hread) hdecode,
    raised_raise s.advance _, rfl⟩

end Sys2Proof

namespace Sys2Proof

/-! ## Encode, then decode (30_encoding.md section 5) -/

/-- The Codec reads back every term that stands for an instruction. -/
theorem codec_encodeFields {f : Fields} (h : f.wf = true) : codec (encodeFields f) = f := by
  cases f with
  | std op a b c =>
    have hop : op ≠ 13 := by rintro rfl; cases h
    exact codec_encodeFields_std hop a b c
  | orth r imm => exact codec_encodeFields_orth r imm

theorem fieldsOfInstr_wf (i : Instr) : (fieldsOfInstr i).wf = true := by
  cases i <;> rfl

theorem instrOfFields_fieldsOfInstr (i : Instr) : instrOfFields (fieldsOfInstr i) = .ok i := by
  cases i <;> rfl

/-- Settles O1: the Codec reads the canonical term back, and the opcode map makes the instruction of
its canonical term. -/
theorem decodeOfEncodeIsIdentity : Obligations.DecodeOfEncodeIsIdentity := fun i => by
  rw [decode, encode, codec_encodeFields (fieldsOfInstr_wf i), instrOfFields_fieldsOfInstr]

end Sys2Proof

namespace Sys2Proof.Machine

/-! ## The invariant in three parts: allocator, engine, input stream -/

/-- The clauses of `State.Inv` on the Heap and the allocator (R15 to R19, D17). -/
structure State.AllocInv (s : State) : Prop where
  canonicalHeap : Memory.wf s.heap
  programLive : s.live 0 = true
  freeOnce : s.freeList.Nodup
  freeExact : ∀ i, i ∈ s.freeList ↔ i < s.nextIndex ∧ s.live i = false
  liveBelow : ∀ i, s.live i = true → i < s.nextIndex
  freeNameable : ∀ i ∈ s.freeList, i < 2 ^ 32

/-- The clauses of `State.Inv` on status and cause (R21, R109). -/
structure State.EngineInv (s : State) : Prop where
  runningClean : s.status = .running → s.cause = none
  causeOfCore : s.cause ≠ some .malformedImage

/-- The clauses of `State.Inv` on the input stream (R24). -/
structure State.StreamInv (s : State) : Prop where
  consumedSupplied : s.inPos ≤ s.input.length
  latchExact : s.eof = true ↔ Token.eos ∈ s.input.take s.inPos

theorem State.inv_iff {s : State} : s.Inv ↔ s.AllocInv ∧ s.EngineInv ∧ s.StreamInv := by
  constructor
  · rintro ⟨hwf, hzero, honce, hexact, hbelow, hname, hclean, hcore, hpos, hlatch⟩
    exact ⟨⟨hwf, hzero, honce, hexact, hbelow, hname⟩, ⟨hclean, hcore⟩, ⟨hpos, hlatch⟩⟩
  · rintro ⟨⟨hwf, hzero, honce, hexact, hbelow, hname⟩, ⟨hclean, hcore⟩, ⟨hpos, hlatch⟩⟩
    exact ⟨hwf, hzero, honce, hexact, hbelow, hname, hclean, hcore, hpos, hlatch⟩

/-! ## The allocator's part, primitive by primitive (20_memory.md section 2) -/

/-- Where no index changes its state (R15), a canonical Heap is all there is to show. -/
theorem State.AllocInv.of_same_indices {s t : State} (hs : s.AllocInv) (hwf : Memory.wf t.heap)
    (hlive : ∀ j, t.live j = s.live j) (hfree : t.freeList = s.freeList)
    (hnext : t.nextIndex = s.nextIndex) : t.AllocInv where
  canonicalHeap := hwf
  programLive := (hlive 0).trans hs.programLive
  freeOnce := hfree ▸ hs.freeOnce
  freeExact i := by rw [hfree, hnext, hlive, hs.freeExact]
  liveBelow i := by rw [hlive, hnext]; exact hs.liveBelow i
  freeNameable := hfree ▸ hs.freeNameable

theorem State.AllocInv.of_same_heap {s t : State} (hs : s.AllocInv) (hheap : t.heap = s.heap)
    (hfree : t.freeList = s.freeList) (hnext : t.nextIndex = s.nextIndex) : t.AllocInv :=
  hs.of_same_indices (hheap ▸ hs.canonicalHeap) (State.live_of_heap_eq hheap) hfree hnext

theorem State.AllocInv.memWrite {s t : State} {i o : Nat} {v : Word} (hs : s.AllocInv)
    (h : s.memWrite i o v = .ok t) : t.AllocInv := by
  have hlive : ∀ j, t.live j = s.live j := fun j => (State.memWrite_live_size h j).left
  obtain ⟨_, _, ⟨hfree, hnext⟩, _⟩ := State.memWrite_frame h
  exact hs.of_same_indices (State.memWrite_wf hs.canonicalHeap h) hlive hfree hnext

theorem State.AllocInv.replaceZero {s t : State} {i : Nat} (hs : s.AllocInv)
    (h : s.replaceZero i = .ok t) : t.AllocInv := by
  obtain ⟨b, _, ht⟩ := State.replaceZero_ok_iff.1 h
  have hlive : ∀ j, t.live j = s.live j := fun j => by
    rw [State.live_of_heap_insert (congrArg State.heap ht)]
    by_cases hj : j = 0
    · simp [hj, hs.programLive]
    · simp [hj]
  exact hs.of_same_indices (State.replaceZero_wf hs.canonicalHeap h) hlive
    (by rw [ht]) (by rw [ht])

/-- `Alloc` inserts the new block at the index it returns, whichever branch it takes. -/
theorem State.alloc_heap {s t : State} {n : Word} {i : Nat} (h : s.alloc n = .ok (t, i)) :
    t.heap = Assoc.insert i (Block.zero n) s.heap := by
  obtain ⟨_, ⟨_, _, e⟩ | ⟨_, e⟩⟩ := State.alloc_ok_iff.1 h <;> cases e <;> rfl

/-- The index `Alloc` takes leaves the Free List, or `next_index` passes it. -/
theorem State.AllocInv.alloc_indices {s t : State} {n : Word} {i : Nat} (hs : s.AllocInv)
    (h : s.alloc n = .ok (t, i)) :
    t.freeList.Nodup ∧ (∀ j, j ∈ t.freeList ↔ j ∈ s.freeList ∧ j ≠ i) ∧
      (∀ j, j < t.nextIndex ↔ j < s.nextIndex ∨ j = i) := by
  by_cases hnil : s.freeList = []
  · obtain ⟨rfl, hfree, hnext⟩ := State.alloc_mints h hnil
    exact ⟨by simp [hfree], fun j => by simp [hfree, hnil], fun j => by omega⟩
  · obtain ⟨hfree, hnext⟩ := State.alloc_reuses_last h hnil
    have honce := hs.freeOnce
    rw [hfree, ← List.concat_eq_append, List.nodup_concat] at honce
    obtain ⟨hi, hnodup⟩ := honce
    obtain ⟨hlt, _⟩ := (hs.freeExact i).1 (by simp [hfree])
    refine ⟨hnodup, fun j => ?_, fun j => by omega⟩
    have hne : j ∈ t.freeList → j ≠ i := fun hj e => hi (e ▸ hj)
    simp only [hfree, List.mem_append, List.mem_singleton]
    tauto

theorem State.AllocInv.alloc {s t : State} {n : Word} {i : Nat} (hs : s.AllocInv)
    (h : s.alloc n = .ok (t, i)) : t.AllocInv := by
  obtain ⟨hnodup, hfree, hnext⟩ := hs.alloc_indices h
  have hlive : ∀ j, t.live j = (decide (j = i) || s.live j) :=
    State.live_of_heap_insert (State.alloc_heap h)
  refine ⟨State.alloc_wf hs.canonicalHeap h, by simp [hlive, hs.programLive], hnodup,
    fun j => ?_, fun j hj => ?_, fun j hj => hs.freeNameable j ((hfree j).1 hj).left⟩
  · have hexact := hs.freeExact j
    simp only [hfree, hnext, hlive, Bool.or_eq_false_iff, decide_eq_false_iff_not]
    tauto
  · have hbelow := hs.liveBelow j
    simp only [hlive, Bool.or_eq_true, decide_eq_true_eq] at hj
    rw [hnext]
    tauto

/-- Only a live index is reclaimed, so it is below `next_index` and not on the Free List yet. -/
theorem State.AllocInv.reclaim {s t : State} {v : Word} (hs : s.AllocInv)
    (h : s.reclaim v.toNat = .ok t) : t.AllocInv := by
  obtain ⟨hv, hvlive, ht⟩ := State.reclaim_ok_iff.1 h
  have hfree := State.reclaim_freeList h
  have hnext : t.nextIndex = s.nextIndex := by rw [ht]
  have hlive := State.live_of_heap_erase (congrArg State.heap ht)
  have hvfree : v.toNat ∉ s.freeList := fun hmem => by
    simp [((hs.freeExact _).1 hmem).right] at hvlive
  have hvlt := hs.liveBelow _ hvlive
  have hmem : ∀ j, j ∈ t.freeList ↔ j ∈ s.freeList ∨ j = v.toNat := by simp [hfree]
  refine ⟨State.reclaim_wf hs.canonicalHeap h, by simp [hlive, hs.programLive, hv.symm], ?_,
    fun j => ?_, fun j hj => ?_, fun j hj => ?_⟩
  · rw [hfree, ← List.concat_eq_append]
    exact hs.freeOnce.concat hvfree
  · rw [hmem, hlive, hnext, hs.freeExact]
    by_cases hj : j = v.toNat
    · simp [hj, hvlt]
    · simp [hj]
  · rw [hlive, Bool.and_eq_true] at hj
    rw [hnext]
    exact hs.liveBelow j hj.right
  · rcases (hmem j).1 hj with hold | rfl
    · exact hs.freeNameable j hold
    · exact v.isLt

/-- Every change of an instruction to the Heap or the allocator is one primitive's. -/
theorem State.AllocInv.exec {i : Instr} {s t : State} (hs : s.AllocInv)
    (h : exec i s = .next t) : t.AllocInv := by
  rcases exec_heap_cases h with ⟨hheap, hfree, hnext⟩ | ⟨_, _, _, hwrite⟩ |
    ⟨_, u, _, halloc, hheap, hfree, hnext⟩ | ⟨_, hreclaim⟩ |
    ⟨_, u, _, hreplace, hheap, hfree, hnext⟩
  · exact hs.of_same_heap hheap hfree hnext
  · exact hs.memWrite hwrite
  · exact (hs.alloc halloc).of_same_heap hheap hfree hnext
  · exact hs.reclaim hreclaim
  · exact (hs.replaceZero hreplace).of_same_heap hheap hfree hnext

theorem State.AllocInv.step {s t : State} (hs : s.AllocInv) (h : step s = .next t) :
    t.AllocInv := by
  rcases step_sameHeap_or_exec h with ⟨hheap, hfree, hnext⟩ | ⟨i, hexec⟩
  · exact hs.of_same_heap hheap hfree hnext
  · exact (hs.of_same_heap rfl rfl rfl : s.advance.AllocInv).exec hexec

/-! ## The engine's part and the stream's part (10_state.md sections 5 and 7) -/

/-- A machine that is RUNNING after a step has kept the cause it had. -/
theorem State.EngineInv.step {s t : State} (hs : s.EngineInv) (h : step s = .next t) :
    t.EngineInv := by
  refine ⟨fun hrun => ?_, step_keeps_cause_ne_malformedImage hs.causeOfCore h⟩
  cases hstatus : s.status with
  | halted =>
    cases (step_of_halted hstatus).symm.trans h
    exact hs.runningClean hrun
  | running =>
    rcases step_engine_cases hstatus h with ⟨_, _, hsame⟩ | ⟨_, hhalt, _⟩ | ⟨_, hhalt, _⟩
    · exact hsame.trans (hs.runningClean hstatus)
    · simp [hhalt] at hrun
    · simp [hhalt] at hrun

theorem State.StreamInv.of_same_stream {s t : State} (hs : s.StreamInv) (hpos : t.inPos = s.inPos)
    (heof : t.eof = s.eof) (hinput : t.input = s.input) : t.StreamInv :=
  ⟨by rw [hpos, hinput]; exact hs.consumedSupplied, by rw [hpos, hinput, heof]; exact hs.latchExact⟩

/-- A token is consumed with the latch clear, and the latch is set where that token is `eos`. -/
theorem State.StreamInv.takeInput {s u : State} {v : Word} (hs : s.StreamInv)
    (h : s.takeInput = some (u, v)) : u.StreamInv := by
  have consumed : ∀ {k}, s.input[s.inPos]? = some k →
      s.inPos + 1 ≤ s.input.length ∧ s.input.take (s.inPos + 1) = s.input.take s.inPos ++ [k] :=
    fun hk => by
      obtain ⟨hlt, _⟩ := List.getElem?_eq_some_iff.1 hk
      exact ⟨hlt, by rw [List.take_add_one, hk]; rfl⟩
  have hlatch := hs.latchExact
  rcases State.takeInput_cases s with ⟨_, e⟩ | ⟨_, _, e⟩ | ⟨_, hk, e⟩ | ⟨b, hclear, hk, e⟩ <;>
    cases e.symm.trans h
  · exact hs
  · obtain ⟨hle, htake⟩ := consumed hk
    exact ⟨hle, by simp [htake]⟩
  · obtain ⟨hle, htake⟩ := consumed hk
    exact ⟨hle, by simpa [htake] using hlatch⟩

theorem State.StreamInv.step {s t : State} (hs : s.StreamInv) (h : step s = .next t) :
    t.StreamInv := by
  rcases step_stream_cases h with ⟨_, hpos, heof, hinput⟩ | ⟨_, rfl⟩ | ⟨_, u, _, htake, rfl⟩
  · exact hs.of_same_stream hpos heof hinput
  · exact hs.of_same_stream rfl rfl rfl
  · have hadvance : s.advance.StreamInv := hs.of_same_stream rfl rfl rfl
    exact (hadvance.takeInput htake).of_same_stream rfl rfl rfl

end Sys2Proof.Machine

namespace Sys2Proof

open Machine

/-- Settles O58: a step keeps each of the three parts of the invariant by itself. -/
theorem stepKeepsTheStateInvariant : Obligations.StepKeepsTheStateInvariant := by
  intro s t hinv h
  obtain ⟨halloc, hengine, hstream⟩ := State.inv_iff.1 hinv
  exact State.inv_iff.2 ⟨halloc.step h, hengine.step h, hstream.step h⟩

end Sys2Proof

namespace Sys2Proof

/-! ## Decode, then encode (30_encoding.md section 5, R60) -/

theorem canonical_encode (i : Instr) : canonical (encode i) = true := by
  cases i with
  | cmov a b c => exact Laws.CanonicalEncoding.cmov a b c
  | aidx a b c => exact Laws.CanonicalEncoding.aidx a b c
  | amend a b c => exact Laws.CanonicalEncoding.amend a b c
  | add a b c => exact Laws.CanonicalEncoding.add a b c
  | mul a b c => exact Laws.CanonicalEncoding.mul a b c
  | div a b c => exact Laws.CanonicalEncoding.div a b c
  | nand a b c => exact Laws.CanonicalEncoding.nand a b c
  | halt => exact Laws.CanonicalEncoding.halt
  | alloc b c => exact Laws.CanonicalEncoding.alloc b c
  | aband c => exact Laws.CanonicalEncoding.aband c
  | out c => exact Laws.CanonicalEncoding.out c
  | inp c => exact Laws.CanonicalEncoding.inp c
  | loadp b c => exact Laws.CanonicalEncoding.loadp b c
  | orth r imm => exact Laws.CanonicalEncoding.orth r imm

/-- R51: bits 27 to 9 belong to no field, so a Word whose bits there are zero is its four fields. -/
theorem encodeFields_codec_of_std {w : Word} (hop : opField w ≠ 13) (h : bitField w 27 9 = 0) :
    encodeFields (codec w) = w := by
  apply BitVec.eq_of_toNat_eq
  rw [codec, if_neg hop, encodeFields_std_toNat]
  simp only [opField, aField, bField, cField, bitField_eq, Fin.val_ofNat] at h ⊢
  omega

/-- R52: the Orthography layout has no bit that belongs to no field. -/
theorem encodeFields_codec_of_orth {w : Word} (hop : opField w = 13) :
    encodeFields (codec w) = w := by
  apply BitVec.eq_of_toNat_eq
  rw [codec, if_pos hop, encodeFields_orth_toNat]
  simp only [opField, rField, immField, bitField_eq, Fin.ext_iff, Fin.val_ofNat,
    BitVec.toNat_ofNat] at hop ⊢
  omega

/-- What R60 asks of a Word, by the register fields its operation code uses: all three, B and C, C
alone, or none. -/
theorem canonical_cases {w : Word} (h : canonical w = true) (hop : opField w ≠ 13) :
    bitField w 27 9 = 0 ∧
      ((opField w).val = 8 ∨ (opField w).val = 12 → aField w = 0) ∧
      ((opField w).val = 9 ∨ (opField w).val = 10 ∨ (opField w).val = 11 →
        aField w = 0 ∧ bField w = 0) ∧
      ((opField w).val = 7 → aField w = 0 ∧ bField w = 0 ∧ cField w = 0) := by
  simp only [aField, bField, cField, Fin.ext_iff, Fin.val_ofNat, bitField_eq, Nat.reducePow,
    Nat.reduceSub, Nat.reduceAdd] at hop ⊢
  unfold canonical at h
  split at h
  case h_10 => simp_all [bitField_eq]
  all_goals simp [bitField_eq] at h <;> omega

/-- Row by row of R55, where 13, 14 and 15 have none: the row's canonical term is the term itself,
if the fields the row does not use are zero (R60). -/
theorem fieldsOfInstr_of_instrOfFields_std {op : Fin 16} {a b c : Reg} {i : Instr}
    (h : instrOfFields (.std op a b c) = .ok i)
    (hbc : op.val = 8 ∨ op.val = 12 → a = 0)
    (hc : op.val = 9 ∨ op.val = 10 ∨ op.val = 11 → a = 0 ∧ b = 0)
    (hnone : op.val = 7 → a = 0 ∧ b = 0 ∧ c = 0) : fieldsOfInstr i = .std op a b c := by
  fin_cases op <;> cases h <;> simp_all [fieldsOfInstr]

/-- The canonical term of the instruction that a canonical Word decodes to is the Codec's. -/
theorem fieldsOfInstr_of_decode_canonical {w : Word} {i : Instr} (hw : canonical w = true)
    (h : decode w = .ok i) : fieldsOfInstr i = codec w := by
  rw [decode] at h
  by_cases hop : opField w = 13
  · rw [codec, if_pos hop] at h ⊢
    cases h
    rfl
  · obtain ⟨_, hbc, hc, hnone⟩ := canonical_cases hw hop
    rw [codec, if_neg hop] at h ⊢
    exact fieldsOfInstr_of_instrOfFields_std h hbc hc hnone

/-- Settles O2: every Word that `encode` answers is canonical, and a canonical Word is the one its
fields encode to. -/
theorem encodeOfDecodeIsCanonicalWord : Obligations.EncodeOfDecodeIsCanonicalWord := by
  refine fun w i h => ⟨fun e => e ▸ canonical_encode i, fun hw => ?_⟩
  rw [encode, fieldsOfInstr_of_decode_canonical hw h]
  by_cases hop : opField w = 13
  · exact encodeFields_codec_of_orth hop
  · exact encodeFields_codec_of_std hop (canonical_cases hw hop).left

/-! ## Ignored bits (30_encoding.md section 4, R57, R58, D6) -/

/-- Words that agree on the low bits agree on every field within them. -/
theorem extractLsb'_eq_of_low {w v : Word} {n lo len : Nat}
    (h : w.extractLsb' 0 n = v.extractLsb' 0 n) (hle : lo + len ≤ n) :
    w.extractLsb' lo len = v.extractLsb' lo len := by
  have field (u : Word) : (u.extractLsb' 0 n).extractLsb' lo len = u.extractLsb' lo len := by
    ext k hk
    simp [show lo + k < n by omega]
  rw [← field w, ← field v, h]

/-- Two Words of one operation code decode alike where its row makes one instruction of their
register fields. -/
theorem decode_eq_of_row {w v : Word} {op : BitVec 4} (hne : op ≠ 13#4)
    (hw : w.extractLsb' 28 4 = op) (hwv : w.extractLsb' 28 4 = v.extractLsb' 28 4)
    (hrow : instrOfFields (.std op.toFin (w.extractLsb' 6 3).toFin (w.extractLsb' 3 3).toFin
        (w.extractLsb' 0 3).toFin) =
      instrOfFields (.std op.toFin (v.extractLsb' 6 3).toFin (v.extractLsb' 3 3).toFin
        (v.extractLsb' 0 3).toFin)) : decode w = decode v := by
  rw [decode_of_op hne hw, decode_of_op hne (hwv ▸ hw), hrow]

/-- Settles O6: the operation code selects the row, and the row reads only the fields it uses. -/
theorem ignoredBitsHaveNoEffect : Obligations.IgnoredBitsHaveNoEffect := by
  refine fun w v hop => ⟨fun hne hlow => ?_, fun hw => ?_, fun hw hlow => ?_, fun hw hlow => ?_⟩
  · have ha := extractLsb'_eq_of_low (lo := 6) (len := 3) hlow (by decide)
    have hb := extractLsb'_eq_of_low (lo := 3) (len := 3) hlow (by decide)
    have hc := extractLsb'_eq_of_low (lo := 0) (len := 3) hlow (by decide)
    exact decode_eq_of_row hne rfl hop (by rw [ha, hb, hc])
  · exact decode_eq_of_row (by decide) hw hop rfl
  · have hb := extractLsb'_eq_of_low (lo := 3) (len := 3) hlow (by decide)
    have hc := extractLsb'_eq_of_low (lo := 0) (len := 3) hlow (by decide)
    rcases hw with hw | hw <;>
      exact decode_eq_of_row (by decide) hw hop (by rw [hb, hc]; rfl)
  · rcases hw with hw | hw | hw <;>
      exact decode_eq_of_row (by decide) hw hop (by rw [hlow]; rfl)

/-- Settles O7: the decoder run on each of the eight Words. -/
theorem specWordsDecode : Obligations.SpecWordsDecode := by
  unfold Obligations.SpecWordsDecode
  decide

end Sys2Proof

namespace Sys2Proof.Machine

/-! ## The step of a RUNNING machine (40_execution_loop.md R66, R74) -/

/-- R74: only an Input can be held. -/
theorem State.enabled_iff {s : State} {i : Instr} :
    s.enabled i = true ↔ ((∃ c, i = .inp c) → s.eof = true ∨ s.inPos < s.input.length) := by
  cases i with
  | inp c => simp [State.enabled, State.inputReady_iff]
  | _ => simp [State.enabled]

section
variable {s : State} {w : Word} {i : Instr} (hrun : s.status = .running)
  (hread : s.memRead 0 s.pc.toNat = .ok w) (hdecode : decode w = .ok i)
include hrun hread hdecode

/-- Loop steps 2 to 4: fetch and advance, decode, execute. -/
theorem step_of_enabled (henabled : s.enabled i = true) : step s = exec i s.advance := by
  simp only [step, runStep, hrun, State.fetch_ok_iff.2 hread, hdecode, henabled, if_true]

theorem step_of_held (hheld : s.enabled i = false) : step s = .next s := by
  simp [step, runStep, hrun, State.fetch_ok_iff.2 hread, hdecode, hheld]

end

theorem step_next (s : State) : ∃ t, step s = .next t := by
  cases hstatus : s.status with
  | halted => exact ⟨s, step_of_halted hstatus⟩
  | running =>
    cases hfetch : s.fetch with
    | error k => exact ⟨_, step_of_size_le_pc hstatus (State.fetch_error_iff.1 hfetch).left⟩
    | ok w =>
      have hread := State.fetch_ok_iff.1 hfetch
      rcases hdecode : decode w with ⟨op⟩ | i
      · exact ⟨_, step_of_decode_error hstatus hfetch hdecode⟩
      · cases henabled : s.enabled i with
        | true => exact step_of_enabled hstatus hread hdecode henabled ▸ exec_next i s.advance
        | false => exact ⟨s, step_of_held hstatus hread hdecode henabled⟩

/-- A block has at most 2^32 - 1 Words (R17, D3). -/
theorem pc_succ_toNat_of_memRead {s : State} {w : Word} (h : s.memRead 0 s.pc.toNat = .ok w) :
    (s.pc + 1).toNat = s.pc.toNat + 1 := by
  obtain ⟨b, _, hlt, _⟩ := State.memRead_ok_iff.1 h
  have hsize := b.size.isLt
  exact BitVec.toNat_add_of_lt (y := 1) (by simp; omega)

theorem run_of_fixed {M : Host.Core} {s : M.State} (h : M.step s = .next s) (n : Nat) :
    M.run n s = .next s := by
  induction n with
  | zero => rfl
  | succ n ih => simp only [Host.Core.run, h, ih]

/-! ## What an instruction leaves of `pc` and of the launch parameters -/

/-- No instruction changes `in` or `alloc_admit`, and only Load Program writes `pc`. -/
theorem exec_pc_launch {i : Instr} {s t : State} (h : exec i s = .next t) :
    SameLaunch s t ∧ (t.pc = s.pc ∨ ∃ b c, i = .loadp b c) := by
  cases i with
  | cmov a b c =>
    rw [exec_cmov] at h
    cases h
    split <;> exact ⟨⟨rfl, rfl⟩, .inl rfl⟩
  | add | mul | nand | orth | halt => cases h; exact ⟨⟨rfl, rfl⟩, .inl rfl⟩
  | div a b c => rcases exec_div_cases h with ⟨_, rfl⟩ | ⟨_, rfl⟩ <;> exact ⟨⟨rfl, rfl⟩, .inl rfl⟩
  | aidx a b c =>
    rcases exec_aidx_cases h with ⟨_, _, rfl⟩ | ⟨_, _, rfl⟩ <;> exact ⟨⟨rfl, rfl⟩, .inl rfl⟩
  | out c => rcases exec_out_cases h with ⟨_, rfl⟩ | ⟨_, rfl⟩ <;> exact ⟨⟨rfl, rfl⟩, .inl rfl⟩
  | amend a b c =>
    rcases exec_amend_cases h with hwrite | ⟨_, _, rfl⟩
    · obtain ⟨_, hpc, _, _, _, _, hlaunch⟩ := State.memWrite_frame hwrite
      exact ⟨hlaunch, .inl hpc⟩
    · exact ⟨⟨rfl, rfl⟩, .inl rfl⟩
  | alloc b c =>
    rcases exec_alloc_cases h with ⟨u, _, halloc, rfl⟩ | ⟨_, rfl⟩
    · obtain ⟨_, hpc, _, _, hinput, _, _, _, hadmit⟩ := State.alloc_frame halloc
      exact ⟨⟨hinput, hadmit⟩, .inl hpc⟩
    · exact ⟨⟨rfl, rfl⟩, .inl rfl⟩
  | aband c =>
    rcases exec_aband_cases h with hreclaim | ⟨_, rfl⟩
    · obtain ⟨_, _, rfl⟩ := State.reclaim_ok_iff.1 hreclaim
      exact ⟨⟨rfl, rfl⟩, .inl rfl⟩
    · exact ⟨⟨rfl, rfl⟩, .inl rfl⟩
  | inp c =>
    rcases exec_inp_cases h with ⟨u, v, htake, rfl⟩ | ⟨_, rfl⟩
    · obtain ⟨_, hpc, _, _, _, _, _, hinput, _, hadmit⟩ := State.takeInput_frame htake
      exact ⟨⟨hinput, hadmit⟩, .inl hpc⟩
    · exact ⟨⟨rfl, rfl⟩, .inl rfl⟩
  | loadp b c =>
    rcases exec_loadp_cases h with ⟨_, rfl⟩ | ⟨u, _, hreplace, rfl⟩ | ⟨_, _, rfl⟩
    · exact ⟨⟨rfl, rfl⟩, .inr ⟨b, c, rfl⟩⟩
    · obtain ⟨_, _, rfl⟩ := State.replaceZero_ok_iff.1 hreplace
      exact ⟨⟨rfl, rfl⟩, .inr ⟨b, c, rfl⟩⟩
    · exact ⟨⟨rfl, rfl⟩, .inl rfl⟩

/-- A Load Program that halts a RUNNING machine has raised, and has not jumped. -/
theorem exec_loadp_pc_of_halted {b c : Reg} {s t : State} (hrun : s.status = .running)
    (h : exec (.loadp b c) s = .next t) (hhalt : t.status = .halted) : t.pc = s.pc := by
  rcases exec_sameEngine_or_raise (by simp) h with ⟨hsame, _⟩ | ⟨_, _, rfl⟩
  · simp [hsame, hrun] at hhalt
  · rfl

/-! ## Conditions (60_exceptions.md R107, R108, R120) -/

/-- An instruction that leaves a cause where there was none has raised it, and done nothing else. -/
theorem exec_eq_raise_of_cause {i : Instr} {s t : State} {k : FatalCondition}
    (hs : s.cause = none) (h : exec i s = .next t) (hk : t.cause = some k) : t = s.raise k := by
  by_cases hi : i = .halt
  · subst hi
    cases h
    cases hk
  · rcases exec_sameEngine_or_raise hi h with ⟨_, hsame⟩ | ⟨_, _, rfl⟩
    · simp [hsame, hs] at hk
    · cases hk
      rfl

theorem State.memRead_error_cases {s : State} {i o : Nat} {k : FatalCondition}
    (h : s.memRead i o = .error k) : k = .outOfBoundsArray ∨ k = .outOfBoundsOffset := by
  rcases State.memRead_error_iff.1 h with ⟨_, hk⟩ | ⟨_, _, _, hk⟩
  · exact .inl hk
  · exact .inr hk

theorem step_sameLaunch {s t : State} (h : step s = .next t) : SameLaunch s t := by
  rcases step_cases h with ⟨_, rfl⟩ | ⟨_, _, rfl⟩ | ⟨_, _, _, _, _, rfl⟩ |
    ⟨_, i, _, _, _, _, hexec⟩ | ⟨_, _, _, _, _, _, rfl⟩
  case inr.inr.inr.inl => exact (exec_pc_launch hexec).left
  all_goals exact ⟨rfl, rfl⟩

/-- `In()` consumes the token at `in_pos`, or, with the latch set, none. -/
theorem State.takeInput_consumes {s u : State} {v : Word} (h : s.takeInput = some (u, v)) :
    SameInput s u ∨ (u.inPos = s.inPos + 1 ∧ s.eof = false ∧ s.inPos < s.input.length) := by
  have hready {k} (hk : s.input[s.inPos]? = some k) : s.inPos < s.input.length :=
    (List.getElem?_eq_some_iff.1 hk).1
  rcases State.takeInput_cases s with ⟨_, e⟩ | ⟨_, _, e⟩ | ⟨hclear, hk, e⟩ | ⟨b, hclear, hk, e⟩ <;>
    cases e.symm.trans h
  · exact .inl ⟨rfl, rfl⟩
  · exact .inr ⟨rfl, hclear, hready hk⟩
  · exact .inr ⟨rfl, hclear, hready hk⟩

theorem step_input_cases {s t : State} (h : step s = .next t) :
    SameInput s t ∨ (t.inPos = s.inPos + 1 ∧ s.eof = false ∧ s.inPos < s.input.length) := by
  rcases step_stream_cases h with ⟨_, hpos, heof, _⟩ | ⟨_, rfl⟩ | ⟨_, u, _, htake, rfl⟩
  · exact .inl ⟨hpos, heof⟩
  · exact .inl ⟨rfl, rfl⟩
  · exact (State.takeInput_consumes htake :)

end Sys2Proof.Machine

namespace Sys2Proof

open Machine

/-- Settles O8: where the instruction is enabled, the loop's pass is `exec` after the advance. -/
theorem stepRunsDecodedInstruction : Obligations.StepRunsDecodedInstruction :=
  fun _ _ _ hrun hread hdecode hready =>
    step_of_enabled hrun hread hdecode (State.enabled_iff.2 hready)

/-- Settles O9: `exec` runs after the advance, and Load Program alone writes `pc`, unless it
raises. -/
theorem pcAdvancesUnlessLoadProgram : Obligations.PcAdvancesUnlessLoadProgram := by
  intro s w i hrun hread hdecode hready
  obtain ⟨t, hexec⟩ := exec_next i s.advance
  have hstep := step_of_enabled hrun hread hdecode (State.enabled_iff.2 hready)
  refine ⟨t, hstep.trans hexec, hexec, fun hother => ?_, fun b c hi => ?_⟩
  · obtain ⟨_, hpc | ⟨b, c, hi⟩⟩ := exec_pc_launch hexec
    · exact hpc
    · exact absurd hi (hother b c)
  · subst hi
    exact ⟨exec_loadp_pc_of_running (s := s.advance) hexec,
      exec_loadp_pc_of_halted (s := s.advance) hrun hexec⟩

/-- Settles O10: an offset that is read is below a size of at most 2^32 - 1. -/
theorem pcIncrementNeverWraps : Obligations.PcIncrementNeverWraps :=
  fun _ _ => pc_succ_toNat_of_memRead

/-- Settles O11: the bounds check fails before the fetch, and `raise` keeps all but status and
cause. -/
theorem fetchBeyondBlockZeroRaises : Obligations.FetchBeyondBlockZeroRaises :=
  fun s hrun hsize => ⟨_, step_of_size_le_pc hrun hsize, raised_raise s _⟩

/-- Settles O13: a halted state is a fixed point of the step, so of any number of steps. -/
theorem haltedStateNeverChanges : Obligations.HaltedStateNeverChanges :=
  fun _ n hhalt => run_of_fixed (M := core) (step_of_halted hhalt) n

/-- Settles O14: a held Input leaves the state; with the token supplied it is enabled, and runs
after the advance. -/
theorem inputHoldsUntilSupplied : Obligations.InputHoldsUntilSupplied := by
  intro s w c hrun hread hdecode heof hnone
  have hheld : s.enabled (.inp c) = false := by
    simp [State.enabled, State.inputReady, heof, hnone]
  refine ⟨step_of_held hrun hread hdecode hheld, fun k hpos => ?_⟩
  have hready : (s.supply k).enabled (.inp c) = true :=
    State.enabled_iff.2 fun _ => .inr (by simp [hpos])
  obtain ⟨t, hexec⟩ := exec_next (.inp c) (s.supply k).advance
  obtain ⟨_, hpc | ⟨_, _, hi⟩⟩ := exec_pc_launch hexec
  · exact ⟨t, (step_of_enabled (s := s.supply k) hrun hread hdecode hready).trans hexec, hpc⟩
  · cases hi

/-- Settles O15: a case split along the loop's pass, in which no branch stops. -/
theorem stepIsAlwaysDefined : Obligations.StepIsAlwaysDefined := step_next

/-- Settles O42: a step's effect on the input is at most one answer of `In()`. -/
theorem stepConsumesAtMostOneToken : Obligations.StepConsumesAtMostOneToken :=
  fun _ _ h => ⟨step_sameLaunch h, step_input_cases h⟩

/-- Settles O45: an outcome that is not the instruction's own condition keeps the cause, which was
0, and Halt sets it to 0. -/
theorem conditionsOfEachInstruction : Obligations.ConditionsOfEachInstruction := by
  intro i s t k hs h hk
  have hne : t.cause ≠ s.cause := by simp [hs, hk]
  cases i with
  | cmov a b c =>
    rw [exec_cmov] at h
    cases h
    split at hne <;> exact hne rfl
  | add | mul | nand | orth => cases h; exact hne rfl
  | halt => cases h; exact hne hs.symm
  | div a b c =>
    rcases exec_div_cases h with ⟨_, rfl⟩ | ⟨_, rfl⟩
    · exact absurd rfl hne
    · cases hk; rfl
  | aidx a b c =>
    rcases exec_aidx_cases h with ⟨_, _, rfl⟩ | ⟨_, hread, rfl⟩
    · exact absurd rfl hne
    · cases hk; exact State.memRead_error_cases hread
  | amend a b c =>
    rcases exec_amend_cases h with hwrite | ⟨_, hwrite, rfl⟩
    · obtain ⟨_, _, _, ⟨_, hsame⟩, _⟩ := State.memWrite_frame hwrite
      exact absurd hsame hne
    · cases hk; exact State.memRead_error_cases (State.memWrite_error_iff.1 hwrite)
  | alloc b c =>
    rcases exec_alloc_cases h with ⟨u, _, halloc, rfl⟩ | ⟨_, rfl⟩
    · obtain ⟨_, _, _, hsame, _⟩ := State.alloc_frame halloc
      exact absurd hsame hne
    · cases hk; rfl
  | aband c =>
    rcases exec_aband_cases h with hreclaim | ⟨_, rfl⟩
    · obtain ⟨_, _, rfl⟩ := State.reclaim_ok_iff.1 hreclaim
      exact absurd rfl hne
    · cases hk; rfl
  | out c =>
    rcases exec_out_cases h with ⟨_, rfl⟩ | ⟨_, rfl⟩
    · exact absurd rfl hne
    · cases hk; rfl
  | inp c =>
    rcases exec_inp_cases h with ⟨u, v, htake, rfl⟩ | ⟨_, rfl⟩
    · obtain ⟨_, _, _, _, _, _, hsame, _⟩ := State.takeInput_frame htake
      exact hne hsame
    · exact hne rfl
  | loadp b c =>
    rcases exec_loadp_cases h with ⟨_, rfl⟩ | ⟨u, _, hreplace, rfl⟩ | ⟨_, _, rfl⟩
    · exact absurd rfl hne
    · obtain ⟨_, _, rfl⟩ := State.replaceZero_ok_iff.1 hreplace
      exact absurd rfl hne
    · cases hk; rfl

end Sys2Proof

namespace Sys2Proof.Machine

/-! ## A step that raises (60_exceptions.md R108, R120) -/

theorem exec_condition_ne_programCounterOutOfRange {i : Instr} {s t : State} {k : FatalCondition}
    (hs : s.cause = none) (h : exec i s = .next t) (hk : t.cause = some k) :
    k ≠ .programCounterOutOfRange := by
  rintro rfl
  have hrow := conditionsOfEachInstruction i s t _ hs h hk
  cases i <;> simp at hrow

/-- `pc` is advanced, except where the fetch itself fails (R67). -/
theorem step_eq_raise_of_cause {s t : State} {k : FatalCondition} (hrun : s.status = .running)
    (hs : s.cause = none) (h : step s = .next t) (hk : t.cause = some k) :
    (k = .programCounterOutOfRange ∧ t = s.raise k) ∨
    (k ≠ .programCounterOutOfRange ∧ t = s.advance.raise k) := by
  rcases step_cases h with ⟨hhalt, _⟩ | ⟨_, _, rfl⟩ | ⟨_, _, _, _, _, rfl⟩ |
    ⟨_, i, _, _, _, _, hexec⟩ | ⟨_, _, _, _, _, _, rfl⟩
  · simp [hrun] at hhalt
  · cases hk
    exact .inl ⟨rfl, rfl⟩
  · cases hk
    exact .inr ⟨by decide, rfl⟩
  · have hadvance : s.advance.cause = none := hs
    exact .inr ⟨exec_condition_ne_programCounterOutOfRange hadvance hexec hk,
      exec_eq_raise_of_cause hadvance hexec hk⟩
  · simp [hs] at hk

end Sys2Proof.Machine

namespace Sys2Proof

open Machine

/-- Settles O44: the state after is `raise` of the state before, with `pc` advanced or, where the
fetch failed, as it was. -/
theorem fatalConditionsArePrecise : Obligations.FatalConditionsArePrecise := by
  intro s t k hrun hs h hk
  rcases step_eq_raise_of_cause hrun hs h hk with ⟨hpc, rfl⟩ | ⟨hne, rfl⟩
  · exact ⟨raised_raise _ k, fun _ => rfl, fun hne => absurd hpc hne⟩
  · exact ⟨raised_raise _ k, fun hpc => absurd hpc hne, fun _ => rfl⟩

end Sys2Proof

namespace Sys2Proof.Machine

/-! ## The index an Allocation returns (20_memory.md R35, section 9) -/

theorem State.alloc_sameBlock_other {s t : State} {n : Word} {i j : Nat} (hj : j ≠ i)
    (h : s.alloc n = .ok (t, i)) : SameBlock j s t := by
  apply SameBlock.of_block_eq
  rw [State.block, State.alloc_heap h, Assoc.lookup_insert_other hj, State.block]

/-- The index at the end of the Free List is the one taken, and the rest of the list stays. -/
theorem State.alloc_of_freeList_append {s t : State} {n : Word} {i j : Nat} {l : List Nat}
    (h : s.alloc n = .ok (t, j)) (hl : s.freeList = l ++ [i]) :
    j = i ∧ t.freeList = l ∧ t.nextIndex = s.nextIndex := by
  obtain ⟨hlast, hnext⟩ := State.alloc_reuses_last h (by simp [hl])
  obtain ⟨rfl, rfl⟩ := List.append_singleton_inj.1 (hl.symm.trans hlast)
  exact ⟨rfl, rfl, hnext⟩

theorem State.reclaim_nextIndex {s t : State} {i : Nat} (h : s.reclaim i = .ok t) :
    t.nextIndex = s.nextIndex := by
  obtain ⟨_, _, rfl⟩ := State.reclaim_ok_iff.1 h
  rfl

/-- What is reclaimed last is what the next admitted allocation returns. -/
theorem State.alloc_after_reclaim {s t : State} {i : Nat} {n : Word} (hr : s.reclaim i = .ok t)
    (hadmit : t.admits n = true) :
    ∃ u, t.alloc n = .ok (u, i) ∧ u.freeList = s.freeList ∧ u.nextIndex = s.nextIndex := by
  obtain ⟨u, hu, _⟩ := State.alloc_of_admits hadmit
  obtain ⟨hi, hfree, hnext⟩ := State.alloc_of_freeList_append hu (State.reclaim_freeList hr)
  exact ⟨u, hi ▸ hu, hfree, hnext.trans (State.reclaim_nextIndex hr)⟩

/-- The allocator's answer, read off the Free List and `next_index` alone. -/
theorem State.alloc_indices {s t : State} {n : Word} {i : Nat} (h : s.alloc n = .ok (t, i)) :
    i = s.freeList.getLast?.getD s.nextIndex ∧ t.freeList = s.freeList.dropLast ∧
      t.nextIndex = if s.freeList = [] then s.nextIndex + 1 else s.nextIndex := by
  obtain ⟨_, ⟨_, hlast, e⟩ | ⟨hnil, e⟩⟩ := State.alloc_ok_iff.1 h <;> cases e
  · have hne : s.freeList ≠ [] := by rintro hnil; simp [hnil] at hlast
    simp [hlast, hne]
  · simp [hnil]

/-- D17: below 2^32 the Word of an index is its value. -/
theorem wordOfIndex_toNat {i : Nat} (h : i < 2 ^ 32) : (wordOfIndex i).toNat = i := by
  rw [wordOfIndex, if_pos h, BitVec.toNat_ofNat, Nat.mod_eq_of_lt h]

theorem exec_alloc_of_ok {b c : Reg} {s u : State} {i : Nat}
    (h : s.alloc (s.reg c) = .ok (u, i)) :
    exec (.alloc b c) s = .next (u.setReg b (wordOfIndex i)) :=
  State.orRaise_eq_next.2 (.inl (by rw [h]; rfl))

theorem exec_alloc_of_error {b c : Reg} {s : State} {k : FatalCondition}
    (h : s.alloc (s.reg c) = .error k) : exec (.alloc b c) s = .next (s.raise k) :=
  State.orRaise_eq_next.2 (.inr ⟨k, by rw [h]; rfl, rfl⟩)

/-- The index taken was free, or unassigned. -/
theorem State.Inv.not_live_of_alloc {s t : State} {n : Word} {i : Nat} (hs : s.Inv)
    (h : s.alloc n = .ok (t, i)) : s.live i = false := by
  by_cases hnil : s.freeList = []
  · obtain ⟨rfl, _⟩ := State.alloc_mints h hnil
    exact Bool.eq_false_iff.2 fun hlive => Nat.lt_irrefl _ (hs.liveBelow _ hlive)
  · obtain ⟨hfree, _⟩ := State.alloc_reuses_last h hnil
    exact hs.free_not_live (by simp [hfree])

/-! ## Copies, and a read after a write (R37, R45) -/

theorem SameBlock.trans {i : Nat} {s t u : State} (h : SameBlock i s t) (h' : SameBlock i t u) :
    SameBlock i s u := by
  obtain ⟨hlive, hsize, hpeek⟩ := h
  obtain ⟨hlive', hsize', hpeek'⟩ := h'
  exact ⟨hlive'.trans hlive, hsize'.trans hsize, fun o => (hpeek' o).trans (hpeek o)⟩

theorem State.peek_eq_some_iff {s : State} {i o : Nat} {v : Word} :
    s.peek i o = some v ↔ s.memRead i o = .ok v := by
  rw [State.peek]
  cases s.memRead i o <;> simp [Except.toOption]

theorem State.memWrite_of_valid {s : State} {i o : Nat} (v : Word) (hlive : s.live i = true)
    (ho : o < s.size i) : ∃ t, s.memWrite i o v = .ok t := by
  obtain ⟨b, hb, hlt⟩ := State.exists_block_of_valid hlive ho
  exact ⟨_, State.memWrite_ok_iff.2 ⟨b, hb, hlt, rfl⟩⟩

theorem State.memRead_after_memWrite {s t : State} {i o : Nat} {v : Word}
    (h : s.memWrite i o v = .ok t) : t.memRead i o = .ok v :=
  State.peek_eq_some_iff.1 (State.memWrite_peek_same h)

/-- An Array Amendment that leaves the cause 0 has stored. -/
theorem exec_amend_of_no_cause {a b c : Reg} {s t : State} (h : exec (.amend a b c) s = .next t)
    (hcause : t.cause = none) : s.memWrite (s.reg a).toNat (s.reg b).toNat (s.reg c) = .ok t := by
  rcases exec_amend_cases h with hwrite | ⟨_, _, rfl⟩
  · exact hwrite
  · cases hcause

end Sys2Proof.Machine

namespace Sys2Proof

open Machine

/-- Settles O31: `Alloc` inserts a block of zeros at the next index, and the Word of that index is
then written to `x[B]`. -/
theorem allocationCreatesZeroBlock : Obligations.AllocationCreatesZeroBlock := by
  refine ⟨fun _ => decode_of_op (by decide), fun b c s hadmit => ?_⟩
  obtain ⟨u, halloc, _⟩ := State.alloc_of_admits hadmit
  obtain ⟨hx, hpc, hstatus, hcause, hinput, hpos, heof, hout, hlaunch⟩ := State.alloc_frame halloc
  have hblock := State.alloc_block halloc
  have hmint := State.alloc_mints halloc
  have hother : ∀ j, j ≠ s.nextAllocIndex → SameBlock j s u :=
    fun _ hj => State.alloc_sameBlock_other hj halloc
  have hreuse : ∀ l i, s.freeList = l ++ [i] →
      s.nextAllocIndex = i ∧ u.freeList = l ∧ u.nextIndex = s.nextIndex :=
    fun _ _ => State.alloc_of_freeList_append halloc
  have hregs : SameRegsBut b s (u.setReg b (wordOfIndex s.nextAllocIndex)) := fun r hr => by
    rw [State.reg_setReg_other _ _ hr, State.reg, hx, State.reg]
  exact ⟨_, exec_alloc_of_ok halloc,
    fun hlt => by rw [State.reg_setReg_same, wordOfIndex_toNat hlt],
    State.live_iff.2 ⟨_, hblock⟩, State.size_of_block hblock,
    fun _ ho => State.peek_of_block hblock ho, hother, hreuse, hmint, hregs, hpc,
    ⟨hstatus, hcause⟩, ⟨hpos, heof⟩, hout, hinput, hlaunch⟩

/-- Settles O32: `Alloc` fails exactly where the admission test refuses. -/
theorem allocationRefusedByAdmission : Obligations.AllocationRefusedByAdmission := by
  refine ⟨fun s n h => by rw [State.admits, h], fun b c s hrefused => ?_⟩
  exact ⟨_, exec_alloc_of_error (State.alloc_error_iff.2 ⟨hrefused, rfl⟩), raised_raise s _⟩

/-- Settles O37: Block 0 is a block of its own after Load Program, so a write to one of the two is a
write beside the other. -/
theorem loadProgramCopiesDoNotAlias : Obligations.LoadProgramCopiesDoNotAlias := by
  intro b c s hb hlive
  obtain ⟨_, hloadp⟩ := loadProgramReplacesAndJumps
  obtain ⟨_, hreplace, _⟩ := hloadp b c s
  obtain ⟨t, hexec, _, hlive0, hsize0, hpeek0, hother, _⟩ := hreplace hb hlive
  have hsource := hother _ hb
  obtain ⟨hlivei, hsizei, _⟩ := id hsource
  refine ⟨t, hexec, fun o v => ⟨fun ho => ⟨?_, ?_⟩, fun u hu => ?_, fun u hu => ?_⟩⟩
  · exact State.memWrite_of_valid v (hlivei.trans hlive) (hsizei ▸ ho)
  · exact State.memWrite_of_valid v hlive0 (hsize0 ▸ ho)
  · obtain ⟨hlive, hsize, hpeek⟩ := State.memWrite_sameBlock_other hb hu
    exact ⟨hlive.trans hlive0, hsize.trans hsize0, fun p => (hpeek p).trans (hpeek0 p)⟩
  · exact hsource.trans (State.memWrite_sameBlock_other hb.symm hu)

/-- Settles O49: the index was free or `next_index`, and index 0 is live. -/
theorem allocatedIndexWasNotLive : Obligations.AllocatedIndexWasNotLive := by
  intro s t n i hinv halloc
  have hdead := hinv.not_live_of_alloc halloc
  refine ⟨fun hi => ?_, hdead, fun hi => ?_⟩
  · simp [hi, hinv.programLive] at hdead
  · by_cases hnil : s.freeList = []
    · exact ⟨hnil, (State.alloc_mints halloc hnil).left⟩
    · obtain ⟨hfree, _⟩ := State.alloc_reuses_last halloc hnil
      simp [hfree] at hi

/-- Settles O50: `Reclaim` puts the index where the next `Alloc` takes it. -/
theorem reclaimedIndexIsReusedAtOnce : Obligations.ReclaimedIndexIsReusedAtOnce := by
  intro s s1 s2 n m i _ _ hreclaim hadmit
  obtain ⟨s3, halloc, hfree, hnext⟩ := State.alloc_after_reclaim hreclaim hadmit
  exact ⟨s3, halloc, State.size_of_block (State.alloc_block halloc), hnext, hfree⟩

/-- Settles O51: the two indices stand at the end of the Free List in the order of the reclaims, and
each `Alloc` takes the last one. -/
theorem twoReclaimedIndicesReturnInReverse : Obligations.TwoReclaimedIndicesReturnInReverse := by
  intro s s1 s2 s3 n m p q i hp hq halloc hadmit
  obtain ⟨hi, hfree, hnext⟩ :=
    State.alloc_of_freeList_append halloc (State.reclaim_freeList hq)
  obtain ⟨s4, halloc', _⟩ := State.alloc_of_admits hadmit
  obtain ⟨hp', hfree', hnext'⟩ :=
    State.alloc_of_freeList_append halloc' (hfree.trans (State.reclaim_freeList hp))
  refine ⟨hi, s4, hp' ▸ halloc', hfree', ?_⟩
  rw [hnext', hnext, State.reclaim_nextIndex hq, State.reclaim_nextIndex hp]

/-- Settles O52: index, Free List and `next_index` after `Alloc` are functions of the two before
it. -/
theorem allocatedIndexIsDetermined : Obligations.AllocatedIndexIsDetermined := by
  intro s s' t t' n n' i i' hfree hnext halloc halloc'
  obtain ⟨hi, hf, hn⟩ := State.alloc_indices halloc
  obtain ⟨hi', hf', hn'⟩ := State.alloc_indices halloc'
  rw [hi, hi', hf, hf', hn, hn', hfree, hnext]
  exact ⟨rfl, rfl, rfl⟩

/-- Settles O53: the Word read at an address after a write to it is the one written. -/
theorem storedWordIsLoadedNext : Obligations.StoredWordIsLoadedNext := by
  intro a b c d e f s t hstore hcause he hf hs
  have hwrite := exec_amend_of_no_cause hstore (hcause.trans hs)
  have hread : t.memRead (t.reg e).toNat (t.reg f).toNat = .ok (s.reg c) := by
    rw [he, hf]
    exact State.memRead_after_memWrite hwrite
  exact ⟨_, exec_aidx_of_ok hread, State.reg_setReg_same t d _⟩

/-- Settles O54: the store is a write at the offset `pc` is advanced to, so the next fetch reads the
Word stored. -/
theorem storeToProgramIsFetchedNext : Obligations.StoreToProgramIsFetchedNext := by
  intro s w a b c i hrun hread hdecode ha hb hsize hnext hi
  obtain ⟨blk, hblk, _⟩ := State.memRead_ok_iff.1 hread
  obtain ⟨t, hwrite⟩ : ∃ t, s.advance.memWrite 0 (s.pc + 1).toNat (s.reg c) = .ok t :=
    State.memWrite_of_valid _ (State.live_iff.2 ⟨blk, hblk⟩) hsize
  obtain ⟨_, hpc, _, ⟨hstatus, _⟩, _⟩ := State.memWrite_frame hwrite
  have hexec : exec (.amend a b c) s.advance = .next t :=
    exec_amend_of_ok (by simp only [State.advance_reg, ha, hb]; exact hwrite)
  have hfetch : t.memRead 0 t.pc.toNat = .ok (s.reg c) := hpc ▸ State.memRead_after_memWrite hwrite
  have henabled : t.enabled i = true := State.enabled_iff.2 fun ⟨d, hd⟩ => absurd hd (hi d)
  refine ⟨t, (step_of_enabled hrun hread hdecode rfl).trans hexec, hstatus.trans hrun, ?_⟩
  rw [step_of_enabled (hstatus.trans hrun) hfetch hnext henabled, State.advance, hpc,
    State.advance_pc]

end Sys2Proof

namespace Sys2Proof.Machine

/-! ## Input (44_io.md R99, R101, R102) -/

theorem byteWord_toNat (b : Byte) : (byteWord b).toNat = b.toNat :=
  BitVec.toNat_setWidth_of_le (by decide)

theorem endOfStreamWord_toNat : endOfStreamWord.toNat = 2 ^ 32 - 1 := rfl

/-- What `In()` answers for the latch, for an `eos` token and for a byte. -/
theorem State.takeInput_answer {s u : State} {v : Word} (h : s.takeInput = some (u, v)) :
    (s.eof = true → v.toNat = 2 ^ 32 - 1 ∧ SameInput s u) ∧
    (s.eof = false → u.inPos = s.inPos + 1) ∧
    (s.eof = false → s.input[s.inPos]? = some .eos → v.toNat = 2 ^ 32 - 1 ∧ u.eof = true) ∧
    (∀ b, s.eof = false → s.input[s.inPos]? = some (.byte b) →
      v.toNat = b.toNat ∧ u.eof = false) := by
  rcases State.takeInput_cases s with ⟨heof, e⟩ | ⟨_, _, e⟩ | ⟨heof, hk, e⟩ | ⟨b, heof, hk, e⟩ <;>
    cases e.symm.trans h
  · simp [heof, endOfStreamWord_toNat, SameInput]
  · simp [heof, hk, endOfStreamWord_toNat]
  · simp [heof, hk, byteWord_toNat]

theorem exec_inp_of_takeInput {c : Reg} {s u : State} {v : Word} (h : s.takeInput = some (u, v)) :
    exec (.inp c) s = .next (u.setReg c v) := by
  rw [exec, execInp, h]

/-! ## Two's complement (41_register_alu.md R83) -/

theorem nand_self_add_one (v : Word) : ~~~(v &&& v) + immWord 1 = -v := by
  have hone : immWord 1 = 1#32 := rfl
  rw [BitVec.and_self, hone, BitVec.neg_eq_not_add]

/-! ## Cause codes (60_exceptions.md R106, D4) -/

/-- The cause of a code of R106's table; 10 to 15 are no codes. -/
def causeOfCode (code : BitVec 4) : Option FatalCondition :=
  match code.toNat with
  | 1 => some .malformedImage
  | 2 => some .unknownOpcode
  | 3 => some .outOfBoundsArray
  | 4 => some .outOfBoundsOffset
  | 5 => some .invalidReclaim
  | 6 => some .divisionByZero
  | 7 => some .outputRangeError
  | 8 => some .programCounterOutOfRange
  | 9 => some .allocationExhausted
  | _ => none

/-- A code names one cause: what it names can be read back. -/
theorem causeOfCode_causeCode : Function.LeftInverse causeOfCode causeCode
  | none => rfl
  | some k => by cases k <;> rfl

theorem causeCode_le_nine : ∀ k : Option FatalCondition, (causeCode k).toNat ≤ 9
  | none => by decide
  | some k => by cases k <;> decide

/-! ## Reset and load (10_state.md R27, 70_reset_and_hazards.md R131, R132) -/

section
variable (image : List Word) (input : List Token) (admission : AllocAdmit)

theorem State.launch_live_iff (i : Nat) :
    (State.launch image input admission).live i = true ↔ i = 0 := by
  simp [State.live, State.launch_block]

theorem State.launch_reg (r : Reg) : (State.launch image input admission).reg r = 0#32 := by
  simp [State.launch, State.reset, State.reg]

variable {image} (himage : Image.wf image)
include himage

theorem State.launch_size : (State.launch image input admission).size 0 = image.length := by
  rw [State.size_of_block (State.launch_block image input admission 0), Block.ofWords_size himage]

/-- An offset below the size reads the image's Word, and there is no Word beyond. -/
theorem State.launch_peek (k : Nat) :
    (State.launch image input admission).peek 0 k = image[k]? := by
  simp only [State.peek_eq, State.launch_block, if_true, Block.ofWords_size himage,
    Block.read_ofWords]
  by_cases hk : image.length ≤ k
  · simp [hk]
  · simp [hk, Nat.lt_of_not_le hk]

theorem State.launch_inv : (State.launch image input admission).Inv where
  canonicalHeap := State.launch_wf himage input admission
  programLive := State.launch_live_zero image input admission
  freeOnce := List.nodup_nil
  freeExact i := by
    have hlive := State.launch_live_iff image input admission i
    have hone : (State.launch image input admission).nextIndex = 1 := rfl
    have hnil : (State.launch image input admission).freeList = [] := rfl
    simp [hnil, hone, hlive]
  liveBelow i hi := by
    rw [(State.launch_live_iff image input admission i).1 hi]
    exact Nat.one_pos
  freeNameable _ hi := absurd hi List.not_mem_nil
  runningClean _ := rfl
  causeOfCore := by simp [State.launch, State.reset]
  consumedSupplied := Nat.zero_le _
  latchExact := by simp [State.launch, State.reset]

end

/-- The tokens consumed are those of before: a new token stands behind them. -/
theorem State.StreamInv.supply {s : State} (hs : s.StreamInv) (k : Token) :
    (s.supply k).StreamInv where
  consumedSupplied := by
    have := hs.consumedSupplied
    simp only [State.supply_inPos, State.supply_input, List.length_append]
    omega
  latchExact := by
    rw [State.supply_input, State.supply_inPos, State.supply_eof,
      List.take_append_of_le_length hs.consumedSupplied]
    exact hs.latchExact

theorem State.Inv.supply {s : State} (hs : s.Inv) (k : Token) : (s.supply k).Inv := by
  obtain ⟨halloc, ⟨hclean, hcore⟩, hstream⟩ := State.inv_iff.1 hs
  exact State.inv_iff.2 ⟨halloc.of_same_heap rfl rfl rfl, ⟨hclean, hcore⟩, hstream.supply k⟩

/-! ## The Loader's bytes (20_memory.md R40) -/

/-- The four bytes do not overlap, and fill the Word. -/
theorem Loader.word_toNat (b0 b1 b2 b3 : Byte) : (Loader.word b0 b1 b2 b3).toNat =
    b0.toNat * 2 ^ 24 + b1.toNat * 2 ^ 16 + b2.toNat * 2 ^ 8 + b3.toNat := by
  rw [Loader.word, BitVec.toNat_ofNat]
  omega

theorem Loader.word_bytes (b0 b1 b2 b3 : Byte) :
    (Loader.word b0 b1 b2 b3).extractLsb' 24 8 = b0 ∧
    (Loader.word b0 b1 b2 b3).extractLsb' 16 8 = b1 ∧
    (Loader.word b0 b1 b2 b3).extractLsb' 8 8 = b2 ∧
    (Loader.word b0 b1 b2 b3).extractLsb' 0 8 = b3 := by
  have hword := Loader.word_toNat b0 b1 b2 b3
  refine ⟨?_, ?_, ?_, ?_⟩ <;> apply BitVec.eq_of_toNat_eq <;>
    rw [BitVec.extractLsb'_toNat, hword, Nat.shiftRight_eq_div_pow] <;> omega

/-- The Loader takes the first four bytes for the first Word. -/
theorem Loader.image_cons_ok {b0 b1 b2 b3 : Byte} {rest : List Byte} {image : List Word}
    (h : Loader.image (b0 :: b1 :: b2 :: b3 :: rest) = .ok image) :
    ∃ tail, Loader.image rest = .ok tail ∧ image = Loader.word b0 b1 b2 b3 :: tail := by
  rw [Loader.image] at h
  rcases hrest : Loader.image rest with k | tail
  · rw [hrest] at h
    cases h
  · rw [hrest] at h
    cases h
    exact ⟨tail, rfl, rfl⟩

/-- The recursion of the Loader: a group behind the first one is a group of the rest. -/
theorem Loader.image_bytes : ∀ {bytes : List Byte} {image : List Word},
    Loader.image bytes = .ok image → ∀ {k : Nat} {w : Word}, image[k]? = some w →
      bytes[4 * k]? = some (w.extractLsb' 24 8) ∧ bytes[4 * k + 1]? = some (w.extractLsb' 16 8) ∧
      bytes[4 * k + 2]? = some (w.extractLsb' 8 8) ∧ bytes[4 * k + 3]? = some (w.extractLsb' 0 8)
  | [], _, h, _, _, hw => by
    cases h
    cases hw
  | b0 :: b1 :: b2 :: b3 :: rest, _, h, k, w, hw => by
    obtain ⟨tail, htail, rfl⟩ := Loader.image_cons_ok h
    cases k with
    | zero =>
      cases hw
      obtain ⟨h0, h1, h2, h3⟩ := Loader.word_bytes b0 b1 b2 b3
      rw [h0, h1, h2, h3]
      exact ⟨rfl, rfl, rfl, rfl⟩
    | succ k => exact Loader.image_bytes htail hw

end Sys2Proof.Machine

namespace Sys2Proof

open Machine

/-- Settles O17: a write to one register, read at the same and at another number. -/
theorem registerFileIsPureStore : Obligations.RegisterFileIsPureStore :=
  fun s r v => ⟨State.reg_setReg_same s r v, onlyReg_setReg s r v⟩

/-- Settles O24: NAND of a Word with itself is NOT, and NOT plus 1 is the negation. -/
theorem negationIdiom : Obligations.NegationIdiom := by
  intro a b d s had
  refine ⟨_, _, _, exec_nand a b b s, exec_orth d 1 _, exec_add a a d _, ?_⟩
  rw [State.reg_setReg_same, State.reg_setReg_same, State.reg_setReg_other _ _ had,
    State.reg_setReg_same, ← BitVec.toNat_add, nand_self_add_one, BitVec.add_left_neg]
  rfl

/-- Settles O34: the one update of Halt, and a halted machine takes no step. -/
theorem haltEndsRunCleanly : Obligations.HaltEndsRunCleanly :=
  ⟨fun _ => decode_of_op (by decide), fun s => ⟨_, exec_halt s, rfl, rfl, rfl, fun _ => rfl,
    SameHeap.of_heap_eq rfl, ⟨rfl, rfl⟩, ⟨rfl, rfl⟩, rfl, ⟨rfl, rfl⟩, step_of_halted rfl⟩⟩

/-- Settles O36: the move puts one of the two targets into `x[d]`, and Load Program of index 0 jumps
there. -/
theorem conditionalJumpIdiom : Obligations.ConditionalJumpIdiom := by
  intro d e c z s hzd hz
  by_cases hc : (s.reg c).toNat = 0
  · exact ⟨s, _, exec_cmov_of_eq_zero d e hc, exec_loadp_of_eq_zero d hz, fun hne => absurd hc hne,
      fun _ => rfl, SameHeap.of_heap_eq rfl, rfl⟩
  · have hz' : ((s.setReg d (s.reg e)).reg z).toNat = 0 := by
      rw [State.reg_setReg_other _ _ hzd, hz]
    exact ⟨_, _, exec_cmov_of_ne_zero d e hc, exec_loadp_of_eq_zero d hz',
      fun _ => State.reg_setReg_same s d _, fun h0 => absurd h0 hc, SameHeap.of_heap_eq rfl, rfl⟩

/-- Settles O39: an enabled Input writes what `In()` answers, which has one case for the latch and
one for each kind of token. -/
theorem inputReadsNextToken : Obligations.InputReadsNextToken := by
  refine ⟨fun _ => decode_of_op (by decide), fun c s hready => ?_⟩
  obtain ⟨⟨u, v⟩, htake⟩ := Option.ne_none_iff_exists'.1 (State.takeInput_ne_none hready)
  obtain ⟨hx, hpc, hheap, hfree, hnext, hstatus, hcause, hinput, hout, hadmit⟩ :=
    State.takeInput_frame htake
  have hregs : SameRegsBut c s (u.setReg c v) := fun r hr => by
    rw [State.reg_setReg_other _ _ hr, State.reg, hx, State.reg]
  refine ⟨_, exec_inp_of_takeInput htake, hregs, SameHeap.of_heap_eq hheap, hpc, ⟨hfree, hnext⟩,
    ⟨hstatus, hcause⟩, hout, ⟨hinput, hadmit⟩, ?_⟩
  rw [State.reg_setReg_same]
  exact (State.takeInput_answer htake :)

/-- Settles O43: the code of a cause can be read back. -/
theorem causeCodesAreDistinct : Obligations.CauseCodesAreDistinct :=
  ⟨fun _ _ h => causeOfCode_causeCode.injective h, causeCode_le_nine, rfl, rfl, rfl, rfl, rfl, rfl,
    rfl, rfl, rfl, rfl⟩

/-- Settles O55: Block 0 is the image's block and the only one; the rest is the reset state's. -/
theorem launchStateIsTheResetTable : Obligations.LaunchStateIsTheResetTable :=
  fun image input admission himage =>
    ⟨State.launch_reg image input admission, rfl, State.launch_size input admission himage,
      State.launch_peek input admission himage, State.launch_live_iff image input admission,
      rfl, rfl, rfl, rfl, rfl, rfl, rfl, rfl, rfl⟩

/-- Settles O56: the empty image makes a block of size 0 with no cell listed. -/
theorem resetIsEmptyLaunch : Obligations.ResetIsEmptyLaunch := rfl

/-- Settles O57: the four slices of a Word are the bytes of its group, group by group. -/
theorem loaderGroupsBigEndian : Obligations.LoaderGroupsBigEndian :=
  fun _ _ h _ _ => Loader.image_bytes h

/-- Settles O60: after a launch index 0 is the only one assigned, and supply touches the tokens not
yet consumed. -/
theorem hostMovesMeetTheStateInvariant : Obligations.HostMovesMeetTheStateInvariant :=
  ⟨fun _ input admission himage => State.launch_inv input admission himage,
    fun _ k hs => hs.supply k⟩

/-- Settles O59: the reset state is a launch. -/
theorem resetMeetsTheStateInvariant : Obligations.ResetMeetsTheStateInvariant := by
  rw [Obligations.ResetMeetsTheStateInvariant, resetIsEmptyLaunch]
  exact State.launch_inv [.eos] .always (by decide)

end Sys2Proof
